-- ==== Sys2Proof/Word.lean ====
section
/-! DEFINITION. The word types of chip8 CORE: all values are unsigned bit vectors (R8, R9 of 00_scope.md). -/

namespace Sys2Proof

/-- A 4-bit instruction field: `x`, `y`, `n` or `op` (R10). -/
abbrev Nibble := BitVec 4

/-- A byte: a general register, a timer, an immediate `kk` or a memory cell (R20, R30, R31, R51). -/
abbrev Byte := BitVec 8

/-- The 12-bit address field `nnn` (R10). -/
abbrev Addr := BitVec 12

/-- 16 bits: an instruction word, `I`, `pc` or a stack entry (R9, R24, R25, R28). -/
abbrev Word := BitVec 16

end Sys2Proof
end

