-- ==== Sys2Proof/Syntax.lean ====
section
/-! DEFINITION. The 35 instructions of R76 (30_encoding.md), one constructor per row of spec/opcode_table.json. -/

namespace Sys2Proof

/-- An instruction with its operand fields cut out (R10, R72 to R75). -/
inductive Instr where
  /-- `00E0` CLS (R155). -/
  | cls
  /-- `00EE` RET (R103). -/
  | ret
  /-- `1nnn` JP nnn (R101). -/
  | jp (nnn : Addr)
  /-- `2nnn` CALL nnn (R102). -/
  | call (nnn : Addr)
  /-- `3xkk` SE Vx, kk (R110). -/
  | seImm (x : Nibble) (kk : Byte)
  /-- `4xkk` SNE Vx, kk (R111). -/
  | sneImm (x : Nibble) (kk : Byte)
  /-- `5xy0` SE Vx, Vy (R112). -/
  | seReg (x y : Nibble)
  /-- `6xkk` LD Vx, kk (R122). -/
  | ldImm (x : Nibble) (kk : Byte)
  /-- `7xkk` ADD Vx, kk (R123). -/
  | addImm (x : Nibble) (kk : Byte)
  /-- `8xy0` LD Vx, Vy (R124). -/
  | ldReg (x y : Nibble)
  /-- `8xy1` OR Vx, Vy (R125). -/
  | orReg (x y : Nibble)
  /-- `8xy2` AND Vx, Vy (R126). -/
  | andReg (x y : Nibble)
  /-- `8xy3` XOR Vx, Vy (R127). -/
  | xorReg (x y : Nibble)
  /-- `8xy4` ADD Vx, Vy (R128). -/
  | addReg (x y : Nibble)
  /-- `8xy5` SUB Vx, Vy (R129). -/
  | sub (x y : Nibble)
  /-- `8xy6` SHR Vx {, Vy} (R130): `y` is decoded and ignored. -/
  | shr (x y : Nibble)
  /-- `8xy7` SUBN Vx, Vy (R131). -/
  | subn (x y : Nibble)
  /-- `8xyE` SHL Vx {, Vy} (R132): `y` is decoded and ignored. -/
  | shl (x y : Nibble)
  /-- `9xy0` SNE Vx, Vy (R113). -/
  | sneReg (x y : Nibble)
  /-- `Annn` LD I, nnn (R140). -/
  | ldI (nnn : Addr)
  /-- `Bnnn` JP V0, nnn (R104). -/
  | jpV0 (nnn : Addr)
  /-- `Cxkk` RND Vx, kk (R150). -/
  | rnd (x : Nibble) (kk : Byte)
  /-- `Dxyn` DRW Vx, Vy, n (R156). -/
  | drw (x y n : Nibble)
  /-- `Ex9E` SKP Vx (R167). -/
  | skp (x : Nibble)
  /-- `ExA1` SKNP Vx (R168). -/
  | sknp (x : Nibble)
  /-- `Fx07` LD Vx, DT (R175). -/
  | ldFromDt (x : Nibble)
  /-- `Fx0A` LD Vx, K (R169). -/
  | ldKey (x : Nibble)
  /-- `Fx15` LD DT, Vx (R176). -/
  | ldToDt (x : Nibble)
  /-- `Fx18` LD ST, Vx (R177). -/
  | ldToSt (x : Nibble)
  /-- `Fx1E` ADD I, Vx (R141). -/
  | addI (x : Nibble)
  /-- `Fx29` LD F, Vx (R142). -/
  | ldGlyph (x : Nibble)
  /-- `Fx33` LD B, Vx (R143). -/
  | ldBcd (x : Nibble)
  /-- `Fx55` LD [I], Vx (R144): `x` is the index of the last register stored. -/
  | storeRegs (x : Nibble)
  /-- `Fx65` LD Vx, [I] (R145): `x` is the index of the last register loaded. -/
  | loadRegs (x : Nibble)
  /-- `0nnn` and every word no other row matches: SYS nnn (R70, R78, R100). `op` is the word's leading nibble, the table's first
  field of this row; only the encoder reads it (DESIGN CHOICE, log 8, safe). -/
  | sys (op : Nibble) (nnn : Addr)
  deriving DecidableEq, Repr

end Sys2Proof
end

