-- ==== Sys2Proof/WellFormed.lean ====
section
/-! DEFINITION. Which instructions have an encoding. The field types keep every operand in its range; what is left is that a
`sys` carries a word that belongs to no other row, written out from the table of R78 (30_encoding.md). -/

namespace Sys2Proof

/-- The words that are `SYS`, by leading nibble: the table of R78. `op` is `w[15:12]`, `nnn` is `w[11:0]`. -/
def sysWord (op : Nibble) (nnn : Addr) : Bool :=
  let low := nnn.extractLsb' 0 4
  let kk := nnn.extractLsb' 0 8
  match op with
  | 0x0 => nnn != 0x0E0 && nnn != 0x0EE
  | 0x5 => low != 0x0
  | 0x8 => [0x8, 0x9, 0xA, 0xB, 0xC, 0xD, 0xF].contains low
  | 0x9 => low != 0x0
  | 0xE => kk != 0x9E && kk != 0xA1
  | 0xF => ! [0x07, 0x0A, 0x15, 0x18, 0x1E, 0x29, 0x33, 0x55, 0x65].contains kk
  | _ => false

/-- An instruction is well formed when some word encodes it: always, but for a `sys` whose word another row takes. -/
def Instr.wf : Instr → Bool
  | .sys op nnn => sysWord op nnn
  | .cls | .ret | .jp _ | .call _ | .seImm _ _ | .sneImm _ _ | .seReg _ _ | .ldImm _ _ | .addImm _ _ | .ldReg _ _
  | .orReg _ _ | .andReg _ _ | .xorReg _ _ | .addReg _ _ | .sub _ _ | .shr _ _ | .subn _ _ | .shl _ _ | .sneReg _ _
  | .ldI _ | .jpV0 _ | .rnd _ _ | .drw _ _ _ | .skp _ | .sknp _ | .ldFromDt _ | .ldKey _ | .ldToDt _ | .ldToSt _
  | .addI _ | .ldGlyph _ | .ldBcd _ | .storeRegs _ | .loadRegs _ => true

end Sys2Proof
end

