-- ==== Sys2Proof/Decode.lean ====
section
/-! DEFINITION. The decoder and the encoder, from the opcode map R76 and the decode procedure R77 (30_encoding.md). -/

namespace Sys2Proof

/-- `op = w[15:12]`, the leading nibble (R10). -/
def fieldOp (w : Word) : Nibble := w.extractLsb' 12 4

/-- `x = w[11:8]` (R10). -/
def fieldX (w : Word) : Nibble := w.extractLsb' 8 4

/-- `y = w[7:4]` (R10). -/
def fieldY (w : Word) : Nibble := w.extractLsb' 4 4

/-- `n = w[3:0]` (R10). -/
def fieldN (w : Word) : Nibble := w.extractLsb' 0 4

/-- `kk = w[7:0]`, "concatenation of the low two nibbles" (R10). -/
def fieldKK (w : Word) : Byte := w.extractLsb' 0 8

/-- `nnn = w[11:0]`, "concatenation of the low three nibbles" (R10). -/
def fieldNNN (w : Word) : Addr := w.extractLsb' 0 12

/-- A row of the opcode map R76: a word `w` selects it when `w & mask = pat`. -/
structure Row where
  mnemonic : String
  pat : Word
  mask : Word
  build : Word → Instr

/-- `w & mask = match` (R76). -/
def Row.hits (r : Row) (w : Word) : Bool := w &&& r.mask == r.pat

/-- Rows 2 and 3 of R76: the two words stage (1) of R77 looks for. -/
def fixedRows : List Row :=
  [⟨"CLS", 0x00E0, 0xFFFF, fun _ => .cls⟩,
   ⟨"RET", 0x00EE, 0xFFFF, fun _ => .ret⟩]

/-- Rows 4 to 20 of R76. UNVERIFIED: the spec supplies the patterns but for `6xkk` and `7xkk` from general knowledge
(D33; log 5, unsafe). -/
def lowRows : List Row :=
  [⟨"JP_nnn", 0x1000, 0xF000, fun w => .jp (fieldNNN w)⟩,
   ⟨"CALL_nnn", 0x2000, 0xF000, fun w => .call (fieldNNN w)⟩,
   ⟨"SE_Vx__kk", 0x3000, 0xF000, fun w => .seImm (fieldX w) (fieldKK w)⟩,
   ⟨"SNE_Vx__kk", 0x4000, 0xF000, fun w => .sneImm (fieldX w) (fieldKK w)⟩,
   ⟨"SE_Vx__Vy", 0x5000, 0xF00F, fun w => .seReg (fieldX w) (fieldY w)⟩,
   ⟨"LD_Vx__kk", 0x6000, 0xF000, fun w => .ldImm (fieldX w) (fieldKK w)⟩,
   ⟨"ADD_Vx__kk", 0x7000, 0xF000, fun w => .addImm (fieldX w) (fieldKK w)⟩,
   ⟨"LD_Vx__Vy", 0x8000, 0xF00F, fun w => .ldReg (fieldX w) (fieldY w)⟩,
   ⟨"OR_Vx__Vy", 0x8001, 0xF00F, fun w => .orReg (fieldX w) (fieldY w)⟩,
   ⟨"AND_Vx__Vy", 0x8002, 0xF00F, fun w => .andReg (fieldX w) (fieldY w)⟩,
   ⟨"XOR_Vx__Vy", 0x8003, 0xF00F, fun w => .xorReg (fieldX w) (fieldY w)⟩,
   ⟨"ADD_Vx__Vy", 0x8004, 0xF00F, fun w => .addReg (fieldX w) (fieldY w)⟩,
   ⟨"SUB_Vx__Vy", 0x8005, 0xF00F, fun w => .sub (fieldX w) (fieldY w)⟩,
   ⟨"SHR_Vx____Vy", 0x8006, 0xF00F, fun w => .shr (fieldX w) (fieldY w)⟩,
   ⟨"SUBN_Vx__Vy", 0x8007, 0xF00F, fun w => .subn (fieldX w) (fieldY w)⟩,
   ⟨"SHL_Vx____Vy", 0x800E, 0xF00F, fun w => .shl (fieldX w) (fieldY w)⟩,
   ⟨"SNE_Vx__Vy", 0x9000, 0xF00F, fun w => .sneReg (fieldX w) (fieldY w)⟩]

/-- Rows 21 to 35 of R76. UNVERIFIED: as `lowRows` (D33; log 5, unsafe). -/
def highRows : List Row :=
  [⟨"LD_I__nnn", 0xA000, 0xF000, fun w => .ldI (fieldNNN w)⟩,
   ⟨"JP_V0__nnn", 0xB000, 0xF000, fun w => .jpV0 (fieldNNN w)⟩,
   ⟨"RND_Vx__kk", 0xC000, 0xF000, fun w => .rnd (fieldX w) (fieldKK w)⟩,
   ⟨"DRW_Vx__Vy__n", 0xD000, 0xF000, fun w => .drw (fieldX w) (fieldY w) (fieldN w)⟩,
   ⟨"SKP_Vx", 0xE09E, 0xF0FF, fun w => .skp (fieldX w)⟩,
   ⟨"SKNP_Vx", 0xE0A1, 0xF0FF, fun w => .sknp (fieldX w)⟩,
   ⟨"LD_Vx__DT", 0xF007, 0xF0FF, fun w => .ldFromDt (fieldX w)⟩,
   ⟨"LD_Vx__K", 0xF00A, 0xF0FF, fun w => .ldKey (fieldX w)⟩,
   ⟨"LD_DT__Vx", 0xF015, 0xF0FF, fun w => .ldToDt (fieldX w)⟩,
   ⟨"LD_ST__Vx", 0xF018, 0xF0FF, fun w => .ldToSt (fieldX w)⟩,
   ⟨"ADD_I__Vx", 0xF01E, 0xF0FF, fun w => .addI (fieldX w)⟩,
   ⟨"LD_F__Vx", 0xF029, 0xF0FF, fun w => .ldGlyph (fieldX w)⟩,
   ⟨"LD_B__Vx", 0xF033, 0xF0FF, fun w => .ldBcd (fieldX w)⟩,
   ⟨"LD__I___Vx", 0xF055, 0xF0FF, fun w => .storeRegs (fieldX w)⟩,
   ⟨"LD_Vx___I", 0xF065, 0xF0FF, fun w => .loadRegs (fieldX w)⟩]

/-- The 34 specific rows in the order R77 tries them; a word none of them matches is `SYS` (R70). -/
def opcodeRows : List Row := fixedRows ++ (lowRows ++ highRows)

/-- The decode procedure R77: total on all 65536 words. -/
def decodeWord (w : Word) : Instr :=
  match opcodeRows.find? (fun r => r.hits w) with
  | some r => r.build w
  | none => .sys (fieldOp w) (fieldNNN w)

/-- The word of two bytes, the byte at the lower address in bits 15..8 (R53). -/
def wordOfBytes (hi lo : Byte) : Word := hi ++ lo

/-- The two bytes of a word as they lie in memory, high byte first (R53). -/
def bytesOfWord (w : Word) : List Byte := [w.extractLsb' 8 8, w.extractLsb' 0 8]

/-- Why a byte sequence is no instruction: the one reason is that it ends early, since no word is illegal (R70, R78). -/
inductive DecodeError where
  | truncated
  deriving DecidableEq, Repr

/-- Decode the first instruction of a byte sequence; the rest is handed back. Every instruction is two bytes (R71). -/
def decode : List Byte → Except DecodeError (Instr × List Byte)
  | hi :: lo :: rest => .ok (decodeWord (wordOfBytes hi lo), rest)
  | [_] => .error .truncated
  | [] => .error .truncated

/-- The word of an instruction, field by field from the patterns of R76. -/
def encode : Instr → Word
  | .cls => 0x00E0
  | .ret => 0x00EE
  | .jp nnn => 0x1#4 ++ nnn
  | .call nnn => 0x2#4 ++ nnn
  | .seImm x kk => 0x3#4 ++ x ++ kk
  | .sneImm x kk => 0x4#4 ++ x ++ kk
  | .seReg x y => 0x5#4 ++ x ++ y ++ 0x0#4
  | .ldImm x kk => 0x6#4 ++ x ++ kk
  | .addImm x kk => 0x7#4 ++ x ++ kk
  | .ldReg x y => 0x8#4 ++ x ++ y ++ 0x0#4
  | .orReg x y => 0x8#4 ++ x ++ y ++ 0x1#4
  | .andReg x y => 0x8#4 ++ x ++ y ++ 0x2#4
  | .xorReg x y => 0x8#4 ++ x ++ y ++ 0x3#4
  | .addReg x y => 0x8#4 ++ x ++ y ++ 0x4#4
  | .sub x y => 0x8#4 ++ x ++ y ++ 0x5#4
  | .shr x y => 0x8#4 ++ x ++ y ++ 0x6#4
  | .subn x y => 0x8#4 ++ x ++ y ++ 0x7#4
  | .shl x y => 0x8#4 ++ x ++ y ++ 0xE#4
  | .sneReg x y => 0x9#4 ++ x ++ y ++ 0x0#4
  | .ldI nnn => 0xA#4 ++ nnn
  | .jpV0 nnn => 0xB#4 ++ nnn
  | .rnd x kk => 0xC#4 ++ x ++ kk
  | .drw x y n => 0xD#4 ++ x ++ y ++ n
  | .skp x => 0xE#4 ++ x ++ 0x9E#8
  | .sknp x => 0xE#4 ++ x ++ 0xA1#8
  | .ldFromDt x => 0xF#4 ++ x ++ 0x07#8
  | .ldKey x => 0xF#4 ++ x ++ 0x0A#8
  | .ldToDt x => 0xF#4 ++ x ++ 0x15#8
  | .ldToSt x => 0xF#4 ++ x ++ 0x18#8
  | .addI x => 0xF#4 ++ x ++ 0x1E#8
  | .ldGlyph x => 0xF#4 ++ x ++ 0x29#8
  | .ldBcd x => 0xF#4 ++ x ++ 0x33#8
  | .storeRegs x => 0xF#4 ++ x ++ 0x55#8
  | .loadRegs x => 0xF#4 ++ x ++ 0x65#8
  | .sys op nnn => op ++ nnn

/-- The bytes of an instruction in memory order. -/
def encodeBytes (i : Instr) : List Byte := bytesOfWord (encode i)

/-- The word of an opcode-table row: the row's bits, and zeros above the bits the table gives it. -/
def tableWord (nbits w : Nat) : Word := BitVec.ofNat 16 (w % 2 ^ nbits)

/-- What the decoder reads from the opcode table's word `w` laid out in memory as the hardware stores it. -/
def decodeTableWord (nbits w : Nat) : Option Instr :=
  match decode (bytesOfWord (tableWord nbits w)) with
  | .ok (i, _) => some i
  | .error _ => none

end Sys2Proof
end

