-- ==== Sys2Proof/Config.lean ====
section
/-! DEFINITION. The implementation parameters of R7 (00_scope.md) and the free inputs of R40, R41, R42 (10_state.md). -/

namespace Sys2Proof

/-- What `SYS` may do: the values of the parameter `SYS_ACTION` (R7), of which the spec gives one. -/
inductive SysAction where
  /-- Nothing but the advance of `pc` (R100, D7). -/
  | noOp
  deriving DecidableEq, Repr

/-- The 80 bytes of the table of R32, five per digit, top row first. UNVERIFIED: the spec supplies the bitmaps from general
knowledge (D24; log 6, unsafe). -/
def conventionalGlyphs : List Byte :=
  [0xF0, 0x90, 0x90, 0x90, 0xF0] ++ [0x20, 0x60, 0x20, 0x20, 0x70] ++
  [0xF0, 0x10, 0xF0, 0x80, 0xF0] ++ [0xF0, 0x10, 0xF0, 0x10, 0xF0] ++
  [0x90, 0x90, 0xF0, 0x10, 0x10] ++ [0xF0, 0x80, 0xF0, 0x10, 0xF0] ++
  [0xF0, 0x80, 0xF0, 0x90, 0xF0] ++ [0xF0, 0x10, 0x20, 0x40, 0x40] ++
  [0xF0, 0x90, 0xF0, 0x90, 0xF0] ++ [0xF0, 0x90, 0xF0, 0x10, 0xF0] ++
  [0xF0, 0x90, 0xF0, 0x90, 0x90] ++ [0xE0, 0x90, 0xE0, 0x90, 0xE0] ++
  [0xF0, 0x80, 0x80, 0x80, 0xF0] ++ [0xE0, 0x90, 0x90, 0x90, 0xE0] ++
  [0xF0, 0x80, 0xF0, 0x80, 0xF0] ++ [0xF0, 0x80, 0xF0, 0x80, 0x80]

/-- The parameters of R7, one field each. The widths and counts the Lean types fix are repeated here as the spec's table lists
them; `Sys2Proof/Laws/State.lean` proves that the types agree. -/
structure Config where
  numRegs : Nat
  regWidth : Nat
  flagReg : Nat
  iWidth : Nat
  stackDepth : Nat
  timerWidth : Nat
  instrBytes : Nat
  fbWidth : Nat
  fbHeight : Nat
  numKeys : Nat
  /-- `LOAD_ADDR`: where the image is loaded and where `pc` starts (R44, R216). -/
  loadAddr : Nat
  /-- `GLYPH_BASE`: the address of the glyph of digit 0 (R32). -/
  glyphBase : Nat
  /-- Bytes of one glyph (R32). -/
  glyphBytes : Nat
  /-- Nominal tick rate; timing only, no rule depends on it (R201). -/
  timerHz : Nat
  /-- `MEM_SIZE`: every bounds rule is written against it (R57, D1). -/
  memSize : Nat
  pcWidth : Nat
  stackEntryWidth : Nat
  /-- `SYS_ACTION`: what `SYS` does (R100, D7). -/
  sysAction : SysAction
  /-- The glyph bitmaps, `GLYPH_BYTES` bytes a digit from digit 0 on (R32, D24). -/
  glyphs : List Byte
  deriving DecidableEq, Repr

/-- The values this hardware takes (the table of R7). UNVERIFIED: `memSize`, `pcWidth`, `stackEntryWidth`, `sysAction` and
`glyphs` are the spec's own decisions D1, D2, D7 and D24 (log 3, 4, 7 and 6, each unsafe). -/
def config : Config where
  numRegs := 16
  regWidth := 8
  flagReg := 15
  iWidth := 16
  stackDepth := 16
  timerWidth := 8
  instrBytes := 2
  fbWidth := 64
  fbHeight := 32
  numKeys := 16
  loadAddr := 0x200
  glyphBase := 0x000
  glyphBytes := 5
  timerHz := 60
  memSize := 4096
  pcWidth := 16
  stackEntryWidth := 16
  sysAction := .noOp
  glyphs := conventionalGlyphs

/-- FREE VALUE (R40, D5): the `keys` input of the `n`-th step, where the state's `inputs` settle none (log 2, safe). -/
opaque Config.keysAt : Nat → BitVec 16

/-- FREE VALUE (R42, D4): the `rnd` input of the `n`-th step, where the state's `inputs` settle none (log 2, safe). -/
opaque Config.rndAt : Nat → Byte

/-- FREE VALUE (R41, D3): the `tick` input of the `n`-th step, where the state's `inputs` settle none (log 2, safe). -/
opaque Config.tickAt : Nat → Bool

end Sys2Proof
end

