-- ==== Sys2Proof/Machine/State.lean ====
section
/-! DEFINITION. The architectural state of 10_state.md, the reasons a step can stop, and the state after reset (R44). -/

namespace Sys2Proof.Machine

/-- The four fatal faults of R180. Each one is TAKEN: `State.takeFault` halts the core and writes the fault record (R187), and the
step answers that next state; no step answers `Host.Outcome.fault`. `runOutcome` (Safety.lean) reads a halted state as the
run's fault outcome (R189; log 1, safe). -/
inductive Fault where
  /-- Code 1. Raised by `CALL nnn` when `sp = 16` (R102, R181). Safe: the step goes on as R187 says. -/
  | stackOverflow
  /-- Code 2. Raised by `RET` when `sp = 0` (R103, R182). Safe: the step goes on as R187 says. -/
  | stackUnderflow
  /-- Code 3. Raised by `LD F, Vx` when `V[x] > 15` (R142, R183). Safe: the step goes on as R187 says. -/
  | glyphIndexOutOfRange
  /-- Code 4. Raised by the fetch, `LD B`, `LD [I]`, `LD Vx, [I]` and `DRW` when a byte of the access lies at or above
  `MEM_SIZE` (R184). Safe: the step goes on as R187 says. -/
  | memoryOutOfBounds
  deriving DecidableEq, Repr

/-- Why the model gives something no meaning. -/
inductive Refusal where
  /-- Raised by an arm of `exec` whose instruction has no meaning yet; no arm is left so. Safe. -/
  | notModelled (mnemonic : String)
  /-- Raised by `State.load`, never by a step: an image longer than `MEM_SIZE - LOAD_ADDR` has no defined behaviour
  (R216, U13 of 93_implementation_defined.md, treatment `refuse`). Safe. -/
  | imageTooLong
  deriving DecidableEq, Repr

/-- The fault record of R35. -/
structure FaultRecord where
  kind : Fault
  /-- `fault_pc`: the address the faulting instruction was fetched from. -/
  pc : Word
  /-- `fault_opcode`: the fetched word, or none when the fetch itself faulted. -/
  opcode : Option Word
  deriving DecidableEq, Repr

/-- The input ports of one step, each with one value for the whole step (R40, R41, R42, R95). -/
structure Input where
  /-- Bit `k` is 1 when key `k` is latched as pressed (R40). -/
  keys : BitVec 16
  /-- The random byte (R42). -/
  rnd : Byte
  /-- At least 1/60 second has passed since the last decrement (R41). -/
  tick : Bool
  deriving DecidableEq, Repr

/-- The framebuffer, `fb[cy][cx]`: 32 rows of 64 one-bit pixels (R34). -/
abbrev Frame := Vector (Vector Bool 64) 32

/-- All the state of the machine: the table of 10_state.md, then two fields of the model's own for the free inputs. -/
structure State where
  /-- `V[0]`..`V[15]` (R20). -/
  v : Vector Byte 16
  /-- `I`, the address register (R24). -/
  i : Word
  /-- The address of the next instruction to fetch (R25). -/
  pc : Word
  /-- The number of live return addresses, 0..16 (R29). -/
  sp : Fin 17
  /-- `stack[1]`..`stack[16]`; slot `k` is element `k - 1` (R28, D28). -/
  stack : Vector Word 16
  /-- The delay timer (R30). -/
  dt : Byte
  /-- The sound timer (R31). -/
  st : Byte
  /-- `mem` (R33): the bytes that differ from their reset value, in rising address order. -/
  mem : List Host.Cell
  /-- The framebuffer (R34). -/
  fb : Frame
  /-- The halt latch (R35). -/
  halted : Bool
  /-- The fault record (R35). -/
  fault : Option FaultRecord
  /-- MODEL'S OWN (R40 to R42; log 2): the inputs the host has settled for the coming steps, oldest first. -/
  inputs : List Input
  /-- MODEL'S OWN (R40 to R42; log 2): how many steps have taken their inputs; it indexes the free inputs. -/
  drawn : Nat
  deriving DecidableEq, Repr

/-- The state after reset (R44, R211): memory lists nothing, so every byte holds its reset value. `I`, `sp` and the framebuffer
are zero by the spec's D23 (log 18, unsafe). DESIGN CHOICE: no input is settled and none has been taken (log 2, safe). -/
def State.reset : State where
  v := Vector.replicate 16 0
  i := 0
  pc := BitVec.ofNat 16 config.loadAddr
  sp := 0
  stack := Vector.replicate 16 0
  dt := 0
  st := 0
  mem := []
  fb := Vector.replicate 32 (Vector.replicate 64 false)
  halted := false
  fault := none
  inputs := []
  drawn := 0

end Sys2Proof.Machine
end

