-- ==== Sys2Proof/Machine/Ops.lean ====
section
/-! DEFINITION. The named operations over memory, registers, stack, framebuffer, timers and inputs; taking a fault; the parts of
the step around the instruction (R11 of 00_scope.md, 20_memory.md, 40_step_cycle.md, 60_exceptions.md). -/

namespace Sys2Proof.Machine

/-! ## Memory -/

/-- The glyph table of the configuration, five bytes per digit, top row first (R32, R7). -/
def glyphTable : List Byte := config.glyphs

/-- What an address reads as after reset, and so what an unlisted address reads as: the glyph table from `GLYPH_BASE` on,
0 elsewhere (R33, R44; log 24, safe). -/
def resetByte (a : Nat) : Byte :=
  if config.glyphBase ≤ a then glyphTable.getD (a - config.glyphBase) 0 else 0

/-- `mem`: cells in rising address order, none equal to its reset byte (log 24). -/
abbrev Memory := List Host.Cell

/-- The canonical form from address `lo` on. -/
def Memory.wfFrom (lo : Nat) : Memory → Bool
  | [] => true
  | (a, b) :: m => decide (lo ≤ a) && decide (a < config.memSize) && b != resetByte a && Memory.wfFrom (a + 1) m

/-- The canonical form: addresses strictly rising and below `MEM_SIZE`, no cell equal to its reset byte. -/
def Memory.wf (m : Memory) : Bool := Memory.wfFrom 0 m

/-- The byte at an address (R55, the in-range part; a read changes nothing). -/
def Memory.read : Memory → Nat → Byte
  | [], a => resetByte a
  | (c, b) :: m, a => if a = c then b else Memory.read m a

/-- The cells with a value put in front, unless it is the reset byte of its address. -/
def Memory.cons (a : Nat) (b : Byte) (m : Memory) : Memory := if b = resetByte a then m else (a, b) :: m

/-- `mem[a] <- b` (R56, the in-range part), keeping the canonical form. -/
def Memory.write : Memory → Nat → Byte → Memory
  | [], a, b => Memory.cons a b []
  | (c, d) :: m, a, b =>
    if a < c then Memory.cons a b ((c, d) :: m)
    else if a = c then Memory.cons a b m
    else (c, d) :: Memory.write m a b

/-- `n` bytes at ascending addresses from `a` on (R54). -/
def Memory.readBytes (m : Memory) (a : Nat) : Nat → List Byte
  | 0 => []
  | n + 1 => Memory.read m a :: Memory.readBytes m (a + 1) n

/-- Store bytes at ascending addresses from `a` on (R54). -/
def Memory.writeBytes (m : Memory) (a : Nat) : List Byte → Memory
  | [] => m
  | b :: bs => Memory.writeBytes (Memory.write m a b) (a + 1) bs

/-- `CheckRange(addr, len)` passes (R57): computed without wrap, and an empty range is always in range. -/
def inRange (a len : Nat) : Bool := len == 0 || decide (a + len - 1 < config.memSize)

/-- The model's read of one byte of memory. -/
def State.memByte (s : State) (a : Nat) : Byte := Memory.read s.mem a

/-- Read `len` bytes after the whole range is checked; `none` raises `MemoryOutOfBounds` (R55, R57). -/
def State.loadBytes (s : State) (a len : Nat) : Option (List Byte) :=
  if inRange a len then some (Memory.readBytes s.mem a len) else none

/-- Store bytes after the whole range is checked; `none` raises `MemoryOutOfBounds`, with no byte stored (R56, R57, D10). -/
def State.storeBytes (s : State) (a : Nat) (bs : List Byte) : Option State :=
  if inRange a bs.length then some { s with mem := Memory.writeBytes s.mem a bs } else none

/-! ## Registers, program counter, timers -/

/-- `V[x]` (R20). -/
def State.reg (s : State) (x : Nibble) : Byte := s.v[x.toNat]'x.isLt

/-- `V[x] <- b` (R20); no register is hardwired. -/
def State.setReg (s : State) (x : Nibble) (b : Byte) : State := { s with v := s.v.set x.toNat b x.isLt }

/-- `V[k] <- bs[k]` for every `k` the list reaches (R145). -/
def State.setRegs (s : State) (bs : List Byte) : State :=
  { s with v := Vector.ofFn fun k => bs.getD k.val (s.v.get k) }

/-- `V[0]`..`V[x]` in ascending order (R144). -/
def State.regsUpTo (s : State) (x : Nibble) : List Byte := s.v.toList.take (x.toNat + 1)

/-- `I <- w` (R24). -/
def State.setI (s : State) (w : Word) : State := { s with i := w }

/-- `pc <- w` (R25). -/
def State.setPc (s : State) (w : Word) : State := { s with pc := w }

/-- The advance of the step: `pc <- trunc_16(pc + 2)` (R92). -/
def State.advance (s : State) : State := { s with pc := s.pc + 2 }

/-- `if c: pc <- trunc_16(pc + 2)` (42_conditional_skip.md). -/
def State.skipIf (c : Bool) (s : State) : State := { s with pc := if c then s.pc + 2 else s.pc }

/-- `DT <- b` (R30). -/
def State.setDt (s : State) (b : Byte) : State := { s with dt := b }

/-- `ST <- b` (R31). -/
def State.setSt (s : State) (b : Byte) : State := { s with st := b }

/-! ## The return stack -/

/-- `stack[k]` for `k` in 1..16 (R28); the model's read of one slot (0 outside that range, where there is no slot). -/
def State.slot (s : State) (k : Nat) : Word := if k = 0 then 0 else s.stack.toList.getD (k - 1) 0

/-- `sp <- sp + 1; stack[sp] <- w`; `none` raises `StackOverflow` (R29, R102). -/
def State.push (s : State) (w : Word) : Option State :=
  if h : s.sp.val < 16 then some { s with sp := ⟨s.sp.val + 1, by omega⟩, stack := s.stack.set s.sp.val w h } else none

/-- `w <- stack[sp]; sp <- sp - 1`; `none` raises `StackUnderflow` (R29, R103). The popped slot keeps its value (D28). -/
def State.pop (s : State) : Option (Word × State) :=
  if h : 0 < s.sp.val then
    some (s.stack[s.sp.val - 1]'(by omega), { s with sp := ⟨s.sp.val - 1, by omega⟩ })
  else none

/-! ## The framebuffer -/

/-- `FbGet(cx, cy)` (R11). -/
def Frame.pixel (f : Frame) (cx : Fin 64) (cy : Fin 32) : Bool := (f.get cy).get cx

/-- `FbSet(cx, cy, b)` (R11). -/
def Frame.setPixel (f : Frame) (cx : Fin 64) (cy : Fin 32) (b : Bool) : Frame :=
  f.set cy.val ((f.get cy).set cx.val b cx.isLt) cy.isLt

/-- All 2048 pixels 0 (R11, R155). -/
def Frame.blank : Frame := Vector.replicate 32 (Vector.replicate 64 false)

/-- The model's read of one pixel. -/
def State.pixel (s : State) (cx : Fin 64) (cy : Fin 32) : Bool := Frame.pixel s.fb cx cy

/-! ## The inputs of a step -/

/-- The inputs of the next step: the ones the host has settled, or else free values (R39 to R42, R95; log 2). -/
def State.input (s : State) : Input :=
  match s.inputs with
  | [] => { keys := Config.keysAt s.drawn, rnd := Config.rndAt s.drawn, tick := Config.tickAt s.drawn }
  | inp :: _ => inp

/-- The step has taken its inputs; the next step takes the following ones. -/
def State.takeInput (s : State) : State := { s with inputs := s.inputs.tail, drawn := s.drawn + 1 }

/-! ## Faults -/

/-- The code of a fault (R180, D11; log 29). -/
def Fault.code : Fault → Nat
  | .stackOverflow => 1
  | .stackUnderflow => 2
  | .glyphIndexOutOfRange => 3
  | .memoryOutOfBounds => 4

/-- What a fault does (R187): the halt latch is set and the record filled with the kind, the address the instruction was fetched
from (`pc` is not advanced yet) and the word; every other piece of state keeps its value. There is no vector, no mode change and
no return (R188, R191): only reset leaves this state (`State.hostReset`). -/
def State.takeFault (s : State) (kind : Fault) (opcode : Option Word) : State :=
  { s with halted := true, fault := some { kind := kind, pc := s.pc, opcode := opcode } }

/-- `raise kind` by instruction `i` (R11, R96): the state before the step with the fault taken. The recorded opcode is the word of
`i`, which is the fetched word (DEDUCED from R77, log 11, safe). -/
def raise (kind : Fault) (i : Instr) (s : State) : Host.Outcome State Fault Refusal :=
  .next (s.takeFault kind (some (encode i)))

/-- An instruction that cannot fault: its effect on the state in which `pc` is the address of the following instruction
(R11, R92). -/
def complete (effect : State → State) (s : State) : Host.Outcome State Fault Refusal := .next (effect s.advance)

/-! ## The step around the instruction -/

/-- The fetch (R91): the big-endian word at `pc`; `none` when `pc + 1 >= MEM_SIZE`. Any alignment (R58). -/
def State.fetch (s : State) : Option Word :=
  match s.loadBytes s.pc.toNat config.instrBytes with
  | some (hi :: lo :: _) => some (wordOfBytes hi lo)
  | _ => none

/-- A timer at the end of a step (R94): decremented when nonzero on a tick, saturating at 0, never wrapping. -/
def countDown (tick : Bool) (b : Byte) : Byte := if b != 0 && tick then b - 1 else b

/-- The timer tick (R94): the two timers are tested and decremented independently. -/
def State.tickTimers (s : State) : State :=
  { s with dt := countDown s.input.tick s.dt, st := countDown s.input.tick s.st }

/-- The end of a step: the tick, unless the step faulted (R94, R96), and the step's inputs are used up. -/
def State.endStep (s : State) : State := if s.halted then s else s.tickTimers.takeInput

/-- The end of a step on the outcome of its instruction. -/
def finish : Host.Outcome State Fault Refusal → Host.Outcome State Fault Refusal
  | .next s => .next s.endStep
  | .fault r => .fault r
  | .refused r => .refused r

/-! ## Placing one instruction for the next step -/

/-- `s` with the word stored where the next step fetches: at `pc`, or at the load address with `pc` there when no instruction fits
at `pc`; a halted core is made running, since a halted core fetches nothing (R90; log 25). -/
def State.placeWord (s : State) (w : Word) : State :=
  let pc := if inRange s.pc.toNat config.instrBytes then s.pc else BitVec.ofNat 16 config.loadAddr
  { s with
    pc := pc
    mem := Memory.writeBytes s.mem pc.toNat (bytesOfWord w)
    halted := false
    fault := if s.halted then none else s.fault }

end Sys2Proof.Machine
end

