-- ==== Sys2Proof/Machine/Operands.lean ====
section
/-! DEFINITION. The operand forms: addresses, glyph addresses, decimal digits, keys (R80 of 30_encoding.md and the instruction
files). -/

namespace Sys2Proof.Machine

/-- `zext_16(nnn)` (R80). -/
def addrOperand (nnn : Addr) : Word := nnn.setWidth 16

/-- `zext_16(b)` (R80). -/
def zextByte (b : Byte) : Word := b.setWidth 16

/-- `zext_16(GLYPH_BASE + 5 * d)`, the glyph address of digit `d`; `none` raises `GlyphIndexOutOfRange` when `d > 15` (R142). -/
def glyphAddress (d : Byte) : Option Word :=
  if d.toNat ≤ 15 then some (BitVec.ofNat 16 (config.glyphBase + config.glyphBytes * d.toNat)) else none

/-- The three decimal digits of a byte, hundreds first, one whole byte each (R143). -/
def bcdDigits (b : Byte) : List Byte :=
  [BitVec.ofNat 8 (b.toNat / 100), BitVec.ofNat 8 (b.toNat / 10 % 10), BitVec.ofNat 8 (b.toNat % 10)]

/-- `KeyPressed(k)` (R165): a key number above 15 names no key. UNVERIFIED beyond 15: the spec's own D16 (log 14, unsafe). -/
def keyPressed (keys : BitVec 16) (k : Byte) : Bool := decide (k.toNat ≤ 15) && keys.getLsbD k.toNat

/-- `FirstPressed()` (R166): the lowest pressed key. UNVERIFIED: the scan's direction is the spec's own D17 (log 15, unsafe). -/
def firstPressed (keys : BitVec 16) : Option Nat := (List.range config.numKeys).find? fun k => keys.getLsbD k

end Sys2Proof.Machine
end

