-- ==== Sys2Proof/Machine/Address.lean ====
section
/-! DEFINITION. Address register operations and memory transfers (44_address_and_memory.md). `I` is left unchanged by the three
memory transfers (R146; log 13, unsafe). -/

namespace Sys2Proof.Machine

/-- `LD I, nnn` (R140). -/
def execLdI (nnn : Addr) (s : State) : Host.Outcome State Fault Refusal := complete (fun t => t.setI (addrOperand nnn)) s

/-- `ADD I, Vx` (R141): wraps modulo 65536, writes no flag, never faults. UNVERIFIED: the spec's own D14 (log 13, unsafe). -/
def execAddI (x : Nibble) (s : State) : Host.Outcome State Fault Refusal :=
  complete (fun t => t.setI (t.i + zextByte (t.reg x))) s

/-- `LD F, Vx` (R142). -/
def execLdGlyph (x : Nibble) (s : State) : Host.Outcome State Fault Refusal :=
  match glyphAddress (s.reg x) with
  | some a => .next (s.advance.setI a)
  | none => raise .glyphIndexOutOfRange (.ldGlyph x) s

/-- `LD B, Vx` (R143). -/
def execLdBcd (x : Nibble) (s : State) : Host.Outcome State Fault Refusal :=
  match s.advance.storeBytes s.i.toNat (bcdDigits (s.reg x)) with
  | some t => .next t
  | none => raise .memoryOutOfBounds (.ldBcd x) s

/-- `LD [I], Vx` (R144). -/
def execStoreRegs (x : Nibble) (s : State) : Host.Outcome State Fault Refusal :=
  match s.advance.storeBytes s.i.toNat (s.regsUpTo x) with
  | some t => .next t
  | none => raise .memoryOutOfBounds (.storeRegs x) s

/-- `LD Vx, [I]` (R145). -/
def execLoadRegs (x : Nibble) (s : State) : Host.Outcome State Fault Refusal :=
  match s.loadBytes s.i.toNat (x.toNat + 1) with
  | some bs => .next (s.advance.setRegs bs)
  | none => raise .memoryOutOfBounds (.loadRegs x) s

end Sys2Proof.Machine
end

