-- ==== Sys2Proof/Machine/Flags.lean ====
section
/-! DEFINITION. The flag values written to `VF` (R23 of 10_state.md, R120 of 43_alu.md) and the order of the two writes (R121). -/

namespace Sys2Proof.Machine

/-- The number of the flag register, `VF` (R22). -/
def flagReg : Nibble := BitVec.ofNat 4 config.flagReg

/-- A flag is written as exactly 0 or 1 (R23). -/
def flagByte (c : Bool) : Byte := if c then 1 else 0

/-- Carry out of the 9-bit sum: `a + b > 255` (R128). -/
def carryOut (a b : Byte) : Bool := decide (a.toNat + b.toNat > 255)

/-- No borrow in `a - b`: `a >= b` (R129, R131). -/
def noBorrow (a b : Byte) : Bool := decide (a.toNat ≥ b.toNat)

/-- The bit a right shift moves out: bit 0 (R130). -/
def shiftOutRight (a : Byte) : Bool := a.getLsbD 0

/-- The bit a left shift moves out: bit 7 (R132). -/
def shiftOutLeft (a : Byte) : Bool := a.getLsbD 7

/-- Write `VF`. -/
def State.setFlag (s : State) (c : Bool) : State := s.setReg flagReg (flagByte c)

/-- The two writes of a flag-producing ALU instruction: the flag first, the result last, so that with `x = 15` the result stays
(R121). UNVERIFIED: the order is the spec's own D13 (log 12, unsafe). -/
def State.writeFlagged (s : State) (x : Nibble) (c : Bool) (result : Byte) : State := (s.setFlag c).setReg x result

end Sys2Proof.Machine
end

