-- ==== Sys2Proof/Machine/Alu.lean ====
section
/-! DEFINITION. Register load and the 8-bit ALU (43_alu.md). Both operands are read before either write (R121). -/

namespace Sys2Proof.Machine

/-- `LD Vx, kk` (R122). -/
def execLdImm (x : Nibble) (kk : Byte) (s : State) : Host.Outcome State Fault Refusal := complete (fun t => t.setReg x kk) s

/-- `ADD Vx, kk` (R123): wraps, and writes no flag. -/
def execAddImm (x : Nibble) (kk : Byte) (s : State) : Host.Outcome State Fault Refusal :=
  complete (fun t => t.setReg x (t.reg x + kk)) s

/-- `LD Vx, Vy` (R124). UNVERIFIED: that it exists is the spec's own reading D30 (log 23, unsafe). -/
def execLdReg (x y : Nibble) (s : State) : Host.Outcome State Fault Refusal := complete (fun t => t.setReg x (t.reg y)) s

/-- `OR Vx, Vy` (R125): writes no flag. -/
def execOrReg (x y : Nibble) (s : State) : Host.Outcome State Fault Refusal :=
  complete (fun t => t.setReg x (t.reg x ||| t.reg y)) s

/-- `AND Vx, Vy` (R126): writes no flag. -/
def execAndReg (x y : Nibble) (s : State) : Host.Outcome State Fault Refusal :=
  complete (fun t => t.setReg x (t.reg x &&& t.reg y)) s

/-- `XOR Vx, Vy` (R127): writes no flag. -/
def execXorReg (x y : Nibble) (s : State) : Host.Outcome State Fault Refusal :=
  complete (fun t => t.setReg x (t.reg x ^^^ t.reg y)) s

/-- `ADD Vx, Vy` (R128). -/
def execAddReg (x y : Nibble) (s : State) : Host.Outcome State Fault Refusal :=
  complete (fun t => t.writeFlagged x (carryOut (t.reg x) (t.reg y)) (t.reg x + t.reg y)) s

/-- `SUB Vx, Vy` (R129): `x - y`. -/
def execSub (x y : Nibble) (s : State) : Host.Outcome State Fault Refusal :=
  complete (fun t => t.writeFlagged x (noBorrow (t.reg x) (t.reg y)) (t.reg x - t.reg y)) s

/-- `SHR Vx {, Vy}` (R130): logical, in place; `V[y]` is neither read nor written. -/
def execShr (x _y : Nibble) (s : State) : Host.Outcome State Fault Refusal :=
  complete (fun t => t.writeFlagged x (shiftOutRight (t.reg x)) (t.reg x >>> 1)) s

/-- `SUBN Vx, Vy` (R131): `y - x`. -/
def execSubn (x y : Nibble) (s : State) : Host.Outcome State Fault Refusal :=
  complete (fun t => t.writeFlagged x (noBorrow (t.reg y) (t.reg x)) (t.reg y - t.reg x)) s

/-- `SHL Vx {, Vy}` (R132): in place; `V[y]` is neither read nor written. -/
def execShl (x _y : Nibble) (s : State) : Host.Outcome State Fault Refusal :=
  complete (fun t => t.writeFlagged x (shiftOutLeft (t.reg x)) (t.reg x <<< 1)) s

end Sys2Proof.Machine
end

