-- ==== Sys2Proof/Machine/Control.lean ====
section
/-! DEFINITION. Control transfer (41_control_transfer.md): SYS, JP, CALL, RET, JP V0. Every meaning runs from the state in which
`pc` is still the address the instruction was fetched from. -/

namespace Sys2Proof.Machine

/-- `SYS nnn` (R100): the action the parameter `SYS_ACTION` names; `nnn` is carried and ignored. UNVERIFIED: the no-op is the spec's
own D7 (log 7, unsafe). -/
def execSys (_nnn : Addr) (s : State) : Host.Outcome State Fault Refusal :=
  match config.sysAction with
  | .noOp => complete (fun t => t) s

/-- `JP nnn` (R101). -/
def execJp (nnn : Addr) (s : State) : Host.Outcome State Fault Refusal := complete (fun t => t.setPc (addrOperand nnn)) s

/-- `CALL nnn` (R102): pushes the address of the following instruction. -/
def execCall (nnn : Addr) (s : State) : Host.Outcome State Fault Refusal :=
  match s.advance.push s.advance.pc with
  | some t => .next (t.setPc (addrOperand nnn))
  | none => raise .stackOverflow (.call nnn) s

/-- `RET` (R103). -/
def execRet (s : State) : Host.Outcome State Fault Refusal :=
  match s.advance.pop with
  | some (target, t) => .next (t.setPc target)
  | none => raise .stackUnderflow .ret s

/-- `JP V0, nnn` (R104): the sum is not reduced to 12 bits. UNVERIFIED: the spec's own D27 (log 20, safe). -/
def execJpV0 (nnn : Addr) (s : State) : Host.Outcome State Fault Refusal :=
  complete (fun t => t.setPc (addrOperand nnn + zextByte (t.reg 0))) s

end Sys2Proof.Machine
end

