-- ==== Sys2Proof/Machine/Display.lean ====
section
/-! DEFINITION. The framebuffer instructions (46_display.md). -/

namespace Sys2Proof.Machine

/-- A drawing in progress: the framebuffer and whether a pixel went from 1 to 0 so far. -/
abbrev Drawing := Frame × Bool

/-- XOR one sprite bit into one pixel (R156). -/
def drawPixel (cx : Fin 64) (cy : Fin 32) (bit : Bool) (d : Drawing) : Drawing :=
  let old := Frame.pixel d.1 cx cy
  (Frame.setPixel d.1 cx cy (old ^^ bit), d.2 || (old && bit))

/-- The bit of a sprite row at a column: bit 7 is column 0. UNVERIFIED: the spec's own D19 (R158; log 16, unsafe). -/
def spriteBit (row : Byte) (col : Nat) : Bool := row.getLsbD (7 - col)

/-- The column a sprite column lands on: `(bx + col) mod 64` (R156). -/
def drawColumn (bx : Byte) (col : Nat) : Fin 64 := Fin.ofNat 64 (bx.toNat + col)

/-- The row a sprite row lands on: `(by + row) mod 32` (R156). -/
def drawLine (top : Byte) (row : Nat) : Fin 32 := Fin.ofNat 32 (top.toNat + row)

/-- One sprite row: the 8 columns in ascending order (R156). -/
def drawRow (bx : Byte) (cy : Fin 32) (bits : Byte) (d : Drawing) : Drawing :=
  (List.range 8).foldl (fun d col => drawPixel (drawColumn bx col) cy (spriteBit bits col) d) d

/-- The sprite rows from number `row` on, in ascending order (R156). -/
def drawRows (bx top : Byte) (row : Nat) : List Byte → Drawing → Drawing
  | [], d => d
  | bits :: rest, d => drawRows bx top (row + 1) rest (drawRow bx (drawLine top row) bits d)

/-- Draw a sprite at the coordinates `bx`, `top`, and write the collision flag, 0 or 1 (R156). -/
def State.drawSprite (s : State) (bx top : Byte) (sprite : List Byte) : State :=
  let d := drawRows bx top 0 sprite (s.fb, false)
  State.setFlag { s with fb := d.1 } d.2

/-- `CLS` (R155). -/
def execCls (s : State) : Host.Outcome State Fault Refusal := complete (fun t => { t with fb := Frame.blank }) s

/-- `DRW Vx, Vy, n` (R156): the coordinates are read before `VF` is written (D13; log 12), and `n = 0` reads nothing and sets `VF`
to 0 (D20; log 17). -/
def execDrw (x y n : Nibble) (s : State) : Host.Outcome State Fault Refusal :=
  match s.loadBytes s.i.toNat n.toNat with
  | some sprite => .next (s.advance.drawSprite (s.reg x) (s.reg y) sprite)
  | none => raise .memoryOutOfBounds (.drw x y n) s

end Sys2Proof.Machine
end

