-- ==== Sys2Proof/Machine/Keys.lean ====
section
/-! DEFINITION. Key instructions (47_keys.md). -/

namespace Sys2Proof.Machine

/-- `SKP Vx` (R167). -/
def execSkp (x : Nibble) (s : State) : Host.Outcome State Fault Refusal :=
  complete (fun t => t.skipIf (keyPressed t.input.keys (t.reg x))) s

/-- `SKNP Vx` (R168). -/
def execSknp (x : Nibble) (s : State) : Host.Outcome State Fault Refusal :=
  complete (fun t => t.skipIf (!keyPressed t.input.keys (t.reg x))) s

/-- The effect of the key wait on the scan's result (R169): with no key, `pc` goes back to the same instruction; otherwise the
number of the key is stored. -/
def State.keyWait (s : State) (x : Nibble) (key : Option Nat) : State :=
  { s with
    pc := match key with
      | none => s.pc - 2
      | some _ => s.pc
    v := match key with
      | none => s.v
      | some k => s.v.set x.toNat (BitVec.ofNat 8 k) x.isLt }

/-- `LD Vx, K` (R169): no wait for release. UNVERIFIED: the spec's own D18 (log 15, unsafe). -/
def execLdKey (x : Nibble) (s : State) : Host.Outcome State Fault Refusal :=
  complete (fun t => t.keyWait x (firstPressed t.input.keys)) s

end Sys2Proof.Machine
end

