-- ==== Sys2Proof/Machine/Random.lean ====
section
/-! DEFINITION. Random (45_random.md). -/

namespace Sys2Proof.Machine

/-- `RND Vx, kk` (R150): this step's `rnd` input, a free value, masked; writes no flag. -/
def execRnd (x : Nibble) (kk : Byte) (s : State) : Host.Outcome State Fault Refusal :=
  complete (fun t => t.setReg x (t.input.rnd &&& kk)) s

end Sys2Proof.Machine
end

