-- ==== Sys2Proof/Machine/Skip.lean ====
section
/-! DEFINITION. Conditional skips (42_conditional_skip.md). -/

namespace Sys2Proof.Machine

/-- `SE Vx, kk` (R110). -/
def execSeImm (x : Nibble) (kk : Byte) (s : State) : Host.Outcome State Fault Refusal :=
  complete (fun t => t.skipIf (t.reg x == kk)) s

/-- `SNE Vx, kk` (R111). -/
def execSneImm (x : Nibble) (kk : Byte) (s : State) : Host.Outcome State Fault Refusal :=
  complete (fun t => t.skipIf (t.reg x != kk)) s

/-- `SE Vx, Vy` (R112). -/
def execSeReg (x y : Nibble) (s : State) : Host.Outcome State Fault Refusal :=
  complete (fun t => t.skipIf (t.reg x == t.reg y)) s

/-- `SNE Vx, Vy` (R113). -/
def execSneReg (x y : Nibble) (s : State) : Host.Outcome State Fault Refusal :=
  complete (fun t => t.skipIf (t.reg x != t.reg y)) s

end Sys2Proof.Machine
end

