-- ==== Sys2Proof/Machine/Timers.lean ====
section
/-! DEFINITION. Timer instructions (48_timers.md); the tick of the same step comes after them (R94). -/

namespace Sys2Proof.Machine

/-- `LD Vx, DT` (R175). -/
def execLdFromDt (x : Nibble) (s : State) : Host.Outcome State Fault Refusal := complete (fun t => t.setReg x t.dt) s

/-- `LD DT, Vx` (R176). -/
def execLdToDt (x : Nibble) (s : State) : Host.Outcome State Fault Refusal := complete (fun t => t.setDt (t.reg x)) s

/-- `LD ST, Vx` (R177). -/
def execLdToSt (x : Nibble) (s : State) : Host.Outcome State Fault Refusal := complete (fun t => t.setSt (t.reg x)) s

end Sys2Proof.Machine
end

