-- ==== Sys2Proof/Machine/Step.lean ====
section
/-! DEFINITION. The one transition of the machine: the step of 40_step_cycle.md. -/

namespace Sys2Proof.Machine

/-- One step: nothing when halted (R90); the fetch, which may fault with no opcode (R91); decode and execute exactly one
instruction (R93); then the tick, unless it faulted (R94, R96). -/
def step (s : State) : Host.Outcome State Fault Refusal :=
  if s.halted then .next s
  else match s.fetch with
    | none => .next (s.takeFault .memoryOutOfBounds none)
    | some w => finish (exec (decodeWord w) s)

/-- `s` with the opcode table's word `w` where the next step fetches. -/
def State.withFetchWord (s : State) (nbits w : Nat) : State := s.placeWord (tableWord nbits w)

end Sys2Proof.Machine
end

