-- ==== Sys2Proof/Machine/Launch.lean ====
section
/-! DEFINITION. The host's two moves on the state outside a step (R228 of 70_reset_and_hazards.md): reset and the program load.
Its third, the inputs of each step, is `State.inputs` and the free values of Config. No step calls a definition of this file. -/

namespace Sys2Proof.Machine

/-- The host asserts reset (R38, R210): every piece of the machine's state takes its reset value, the fault record and the loaded
program included. The inputs are the host's, so a reset does not touch them (log 27, safe). -/
def State.hostReset (s : State) : State := { State.reset with inputs := s.inputs, drawn := s.drawn }

/-- The load port (R216): the image is copied to `LOAD_ADDR` on, and nothing else is written. An image that does not fit has no
defined behaviour and is refused (U13, D26; log 19, safe). -/
def State.load (s : State) (image : List Byte) : Host.Outcome State Fault Refusal :=
  if image.length ≤ config.memSize - config.loadAddr then
    .next { s with mem := Memory.writeBytes s.mem config.loadAddr image }
  else .refused .imageTooLong

/-- The launch state (R218): reset, then the load, then no step yet. The host loads at no other time (R62, D26). -/
def launch (image : List Byte) : Host.Outcome State Fault Refusal := State.reset.load image

end Sys2Proof.Machine
end

