-- ==== Sys2Proof/Safety.lean ====
section
/-! DEFINITION. The words claims are stated in: a healthy state, the run's outcome, the parts of the state and what it is to keep
one, the condition under which a step faults. -/

namespace Sys2Proof.Machine

/-- A run is safe while the core is not halted: the halted state is never the successful end of a run (R90, R189). -/
abbrev Safe (s : State) : Prop := s.halted = false

/-- The outcome of a run that has reached `s` (R189): a recorded fault is the run's fault outcome (log 1, safe). -/
def runOutcome (s : State) : Host.Outcome State Fault Refusal :=
  match s.fault with
  | some r => .fault r.kind
  | none => .next s

/-- The end-of-run convention D32 of R226: `pc` holds the address of a `JP` to that same address, and the core is not halted
(log 28, safe). -/
def atSelfJump (s : State) : Bool :=
  !s.halted && (match s.fetch with
    | some w => (match decodeWord w with
      | .jp nnn => addrOperand nnn == s.pc
      | _ => false)
    | none => false)

/-- The invariant: memory keeps its canonical form, and the core is halted exactly when a fault is recorded (R35, R187). -/
abbrev Inv (s : State) : Prop := Memory.wf s.mem = true ∧ s.halted = s.fault.isSome

/-- The parts of the state, for frames. -/
inductive Part where
  | regs | addressReg | pc | stack | delayTimer | soundTimer | memory | screen | status | host
  deriving DecidableEq, Repr

/-- `t` has the same part as `s`, said through the model's reads. -/
def Part.same (s t : State) : Part → Prop
  | .regs => ∀ r, t.reg r = s.reg r
  | .addressReg => t.i = s.i
  | .pc => t.pc = s.pc
  | .stack => t.sp = s.sp ∧ ∀ k, t.slot k = s.slot k
  | .delayTimer => t.dt = s.dt
  | .soundTimer => t.st = s.st
  | .memory => ∀ a, t.memByte a = s.memByte a
  | .screen => ∀ cx cy, t.pixel cx cy = s.pixel cx cy
  | .status => t.halted = s.halted ∧ t.fault = s.fault
  | .host => t.inputs = s.inputs ∧ t.drawn = s.drawn

/-- The frame: every part that is not listed is unchanged. -/
def KeepsAllBut (touched : List Part) (s t : State) : Prop := ∀ p, p ∉ touched → p.same s t

/-- A faulting step's next state (R96, R187): the state before it, but for the halt latch and the record. -/
def faulted (s : State) (kind : Fault) (opcode : Option Word) : State :=
  { s with halted := true, fault := some { kind := kind, pc := s.pc, opcode := opcode } }

/-- `raise kind` (R11): "abandon the step with no state change but the fault record, and halt". What else the record holds is in
`faulted`. -/
def Raises (kind : Fault) (i : Instr) (s : State) : Prop :=
  ∃ t, exec i s = .next t ∧ t.halted = true ∧ t.fault.map FaultRecord.kind = some kind ∧ KeepsAllBut [.status] s t

/-- The address of the last byte an access may reach lies below `MEM_SIZE` (R57, R184). -/
abbrev beyondMemory (a len : Nat) : Prop := 0 < len ∧ config.memSize ≤ a + len - 1

/-- The one fault condition of each instruction: the table of R180, "Nothing else faults" (R185). -/
def faultOf (i : Instr) (s : State) : Option Fault :=
  match i with
  | .call _ => if s.sp.val = 16 then some .stackOverflow else none
  | .ret => if s.sp.val = 0 then some .stackUnderflow else none
  | .ldGlyph x => if 15 < (s.reg x).toNat then some .glyphIndexOutOfRange else none
  | .ldBcd _ => if beyondMemory s.i.toNat 3 then some .memoryOutOfBounds else none
  | .storeRegs x => if beyondMemory s.i.toNat (x.toNat + 1) then some .memoryOutOfBounds else none
  | .loadRegs x => if beyondMemory s.i.toNat (x.toNat + 1) then some .memoryOutOfBounds else none
  | .drw _ _ n => if beyondMemory s.i.toNat n.toNat then some .memoryOutOfBounds else none
  | .cls | .jp _ | .seImm _ _ | .sneImm _ _ | .seReg _ _ | .ldImm _ _ | .addImm _ _ | .ldReg _ _ | .orReg _ _
  | .andReg _ _ | .xorReg _ _ | .addReg _ _ | .sub _ _ | .shr _ _ | .subn _ _ | .shl _ _ | .sneReg _ _ | .ldI _ | .jpV0 _
  | .rnd _ _ | .skp _ | .sknp _ | .ldFromDt _ | .ldKey _ | .ldToDt _ | .ldToSt _ | .addI _ | .sys _ _ => none

/-- The word at `pc`, big-endian (R53, R91), where two bytes lie there. -/
def wordAtPc (s : State) : Word := s.memByte s.pc.toNat ++ s.memByte (s.pc.toNat + 1)

/-- The fault of the next step of a running core and the opcode it records: the fetch comes first (R190), and a fetch fault
records no opcode (R187). -/
def stepFault (s : State) : Option (Fault × Option Word) :=
  if beyondMemory s.pc.toNat 2 then some (.memoryOutOfBounds, none)
  else (faultOf (decodeWord (wordAtPc s)) s).map fun k => (k, some (wordAtPc s))

/-- The parts of the state an instruction may change when it does not fault (R23, R24, R26, R28, R30, R31, R34, R56). -/
def touches : Instr → List Part
  | .sys _ _ | .jp _ | .jpV0 _ | .seImm _ _ | .sneImm _ _ | .seReg _ _ | .sneReg _ _ | .skp _ | .sknp _ => [.pc]
  | .call _ | .ret => [.pc, .stack]
  | .ldImm _ _ | .addImm _ _ | .ldReg _ _ | .orReg _ _ | .andReg _ _ | .xorReg _ _ | .addReg _ _ | .sub _ _ | .shr _ _
  | .subn _ _ | .shl _ _ | .rnd _ _ | .ldFromDt _ | .ldKey _ | .loadRegs _ => [.pc, .regs]
  | .ldI _ | .addI _ | .ldGlyph _ => [.pc, .addressReg]
  | .ldBcd _ | .storeRegs _ => [.pc, .memory]
  | .cls => [.pc, .screen]
  | .drw _ _ _ => [.pc, .regs, .screen]
  | .ldToDt _ => [.pc, .delayTimer]
  | .ldToSt _ => [.pc, .soundTimer]

/-- The registers an instruction may write: its destination, and `VF` for the flag-producing ones (R21, R23). -/
def mayWriteReg (r : Nibble) : Instr → Bool
  | .ldImm x _ | .addImm x _ | .ldReg x _ | .orReg x _ | .andReg x _ | .xorReg x _ | .rnd x _ | .ldFromDt x | .ldKey x => r == x
  | .addReg x _ | .sub x _ | .shr x _ | .subn x _ | .shl x _ => r == x || r == 15
  | .drw _ _ _ => r == 15
  | .loadRegs x => decide (r.toNat ≤ x.toNat)
  | .cls | .ret | .jp _ | .call _ | .seImm _ _ | .sneImm _ _ | .seReg _ _ | .sneReg _ _ | .ldI _ | .jpV0 _ | .skp _ | .sknp _
  | .ldToDt _ | .ldToSt _ | .addI _ | .ldGlyph _ | .ldBcd _ | .storeRegs _ | .sys _ _ => false

/-- The key numbered by a byte is pressed: only numbers up to 15 name keys (R165). -/
abbrev keyIsDown (s : State) (k : Byte) : Prop := k.toNat ≤ 15 ∧ s.input.keys.getLsbD k.toNat = true

/-- Where `pc` is at the end of a step that does not fault: the table of R26, with `a` the address of the instruction. -/
def pcAfter (i : Instr) (s : State) : Word :=
  let a := s.pc
  match i with
  | .jp nnn => nnn.setWidth 16
  | .call nnn => nnn.setWidth 16
  | .ret => s.slot s.sp.val
  | .jpV0 nnn => nnn.setWidth 16 + (s.reg 0).setWidth 16
  | .seImm x kk => if s.reg x = kk then a + 4 else a + 2
  | .sneImm x kk => if s.reg x ≠ kk then a + 4 else a + 2
  | .seReg x y => if s.reg x = s.reg y then a + 4 else a + 2
  | .sneReg x y => if s.reg x ≠ s.reg y then a + 4 else a + 2
  | .skp x => if keyIsDown s (s.reg x) then a + 4 else a + 2
  | .sknp x => if ¬keyIsDown s (s.reg x) then a + 4 else a + 2
  | .ldKey _ => if s.input.keys = 0 then a else a + 2
  | .cls | .ldImm _ _ | .addImm _ _ | .ldReg _ _ | .orReg _ _ | .andReg _ _ | .xorReg _ _ | .addReg _ _ | .sub _ _ | .shr _ _
  | .subn _ _ | .shl _ _ | .ldI _ | .rnd _ _ | .drw _ _ _ | .ldFromDt _ | .ldToDt _ | .ldToSt _ | .addI _ | .ldGlyph _
  | .ldBcd _ | .storeRegs _ | .loadRegs _ | .sys _ _ => a + 2

/-- The instructions that read the `keys` input (R95). -/
def readsKeys : Instr → Bool
  | .skp _ | .sknp _ | .ldKey _ => true
  | .cls | .ret | .jp _ | .call _ | .seImm _ _ | .sneImm _ _ | .seReg _ _ | .ldImm _ _ | .addImm _ _ | .ldReg _ _
  | .orReg _ _ | .andReg _ _ | .xorReg _ _ | .addReg _ _ | .sub _ _ | .shr _ _ | .subn _ _ | .shl _ _ | .sneReg _ _
  | .ldI _ | .jpV0 _ | .rnd _ _ | .drw _ _ _ | .ldFromDt _ | .ldToDt _ | .ldToSt _ | .addI _ | .ldGlyph _ | .ldBcd _
  | .storeRegs _ | .loadRegs _ | .sys _ _ => false

/-- The instructions that read the `rnd` input (R95). -/
def readsRnd : Instr → Bool
  | .rnd _ _ => true
  | .cls | .ret | .jp _ | .call _ | .seImm _ _ | .sneImm _ _ | .seReg _ _ | .ldImm _ _ | .addImm _ _ | .ldReg _ _
  | .orReg _ _ | .andReg _ _ | .xorReg _ _ | .addReg _ _ | .sub _ _ | .shr _ _ | .subn _ _ | .shl _ _ | .sneReg _ _
  | .ldI _ | .jpV0 _ | .drw _ _ _ | .skp _ | .sknp _ | .ldFromDt _ | .ldKey _ | .ldToDt _ | .ldToSt _ | .addI _
  | .ldGlyph _ | .ldBcd _ | .storeRegs _ | .loadRegs _ | .sys _ _ => false

/-- `pc` and the return addresses stay where no arithmetic on them wraps (R27). -/
abbrev PcInRange (s : State) : Prop := s.pc.toNat ≤ 0x10FE ∧ ∀ k, (s.slot k).toNat ≤ config.memSize

end Sys2Proof.Machine
end

