-- ==== Sys2Proof/Certificates/Slice0/Obligations.lean ====
section
/-! DEFINITION. The statements for the provers. Frames are said with `KeepsAllBut`, faults with `faulted` (Safety.lean). `D<n>` is
a decision the spec took itself (92_eei_decisions.md); a statement that rests on one says so and is derived. Where a statement
decodes a word, the pattern is the one the cited rule gives as its encoding; that the patterns come from general knowledge is D33
(log 5). -/

open Sys2Proof Sys2Proof.Machine

/-! ## Encoding (30_encoding.md) -/

/-- Words of 95_test_vectors.md section 2.1 decode as that table says; a `SYS` word carries the table's `nnn`, and whatever leading
nibble the model has it carry beside (log 8). -/
def Obligations.KnownWordsDecode : Prop :=
  decodeWord 0x00E0 = .cls ∧ decodeWord 0x00EE = .ret ∧ (∃ op, decodeWord 0x00E1 = .sys op 0x0E1) ∧ decodeWord 0x10E0 = .jp 0x0E0 ∧
  decodeWord 0x6005 = .ldImm 0 5 ∧ decodeWord 0x7003 = .addImm 0 3 ∧ decodeWord 0x5AB0 = .seReg 0xA 0xB ∧
  (∃ op, decodeWord 0x5AB1 = .sys op 0xAB1) ∧ decodeWord 0x8AB7 = .subn 0xA 0xB ∧ decodeWord 0x8ABE = .shl 0xA 0xB ∧
  decodeWord 0xE19E = .skp 1 ∧ decodeWord 0xF365 = .loadRegs 3 ∧ decodeWord 0xD12F = .drw 1 2 15 ∧
  decodeWord 0xC7A5 = .rnd 7 0xA5 ∧ decodeWord 0xBFFF = .jpV0 0xFFF ∧ ∃ op, decodeWord 0xFFFF = .sys op 0xFFF

/-- Decoding the word of a well-formed instruction gives it back, with every operand at every value. -/
def Obligations.DecodeOfEncode : Prop := ∀ i : Instr, i.wf = true → decodeWord (encode i) = i

/-- No bit of a word is dropped: every one of the 65536 words is the word of the instruction it decodes to. -/
def Obligations.EncodeOfDecode : Prop := ∀ w : Word, encode (decodeWord w) = w

/-- Every word decodes to an instruction the encoding admits. -/
def Obligations.DecodedIsWellFormed : Prop := ∀ w : Word, (decodeWord w).wf = true

/-- An instruction takes exactly two bytes of a byte sequence, high byte first, and a sequence of fewer bytes holds none (R71,
R53). -/
def Obligations.DecodeConsumesTwoBytes : Prop :=
  (∀ (i : Instr) (rest : List Byte), i.wf = true → decode (encodeBytes i ++ rest) = .ok (i, rest)) ∧
  (∀ bs : List Byte, bs.length < 2 ↔ decode bs = .error .truncated)

/-- A word that matches none of the 34 specific patterns decodes to `SYS` with `nnn = w[11:0]`, whatever its leading nibble, and
no other word does (R70). -/
def Obligations.UnmatchedWordsAreSys : Prop :=
  ∀ w : Word, (∀ r ∈ opcodeRows, w &&& r.mask ≠ r.pat) ↔ ∃ op, decodeWord w = .sys op (w.extractLsb' 0 12)

/-- The match sets of rows 4 to 35 of R76 are pairwise disjoint (R77). -/
def Obligations.RowsAreDisjoint : Prop :=
  ∀ w : Word, ∀ r ∈ lowRows ++ highRows, ∀ r' ∈ lowRows ++ highRows,
    w &&& r.mask = r.pat → w &&& r'.mask = r'.pat → r.mnemonic = r'.mnemonic

/-- The result of decoding is the row that matches, whichever its place in the table (R77). -/
def Obligations.DecodeTakesTheMatchingRow : Prop :=
  ∀ w : Word, ∀ r ∈ opcodeRows, w &&& r.mask = r.pat → decodeWord w = r.build w

/-! ## The step (40_step_cycle.md, 60_exceptions.md) -/

/-- A running core whose two bytes at `pc` decode to `i` runs exactly `i`: the step is `exec i` and then, unless `i` faulted, the
timers' tick; the step's inputs are used up (the model's own fields, log 2). -/
def Obligations.StepRunsTheDecodedInstruction : Prop :=
  ∀ (s : State) (i : Instr), s.halted = false → s.pc.toNat + 1 < config.memSize →
    decodeWord (s.memByte s.pc.toNat ++ s.memByte (s.pc.toNat + 1)) = i →
    ∀ t, exec i s = .next t →
      step s = .next (if t.halted then t else
        { t with
          dt := if t.input.tick ∧ t.dt ≠ 0 then t.dt - 1 else t.dt
          st := if t.input.tick ∧ t.st ≠ 0 then t.st - 1 else t.st
          inputs := t.inputs.tail
          drawn := t.drawn + 1 })

/-- The fetch is big-endian at any alignment, and so is every pair of bytes of a loaded image (R53). -/
def Obligations.FetchIsBigEndian : Prop :=
  (∀ s : State, s.pc.toNat + 1 < config.memSize → s.fetch = some (s.memByte s.pc.toNat ++ s.memByte (s.pc.toNat + 1))) ∧
  (∀ image : List Byte, image.length ≤ config.memSize - config.loadAddr → ∃ t, launch image = .next t ∧
    ∀ k, k + 1 < image.length → State.fetch { t with pc := BitVec.ofNat 16 (config.loadAddr + k) } =
      some (image.getD k 0 ++ image.getD (k + 1) 0))

/-- A halted core stays as it is however many steps are strobed: no fetch, no tick, and the first fault is the only fault. Rests on
the spec's own D21. -/
def Obligations.HaltedIsPermanent : Prop :=
  ∀ (s : State) (k : Nat), s.halted = true → Sys2Proof.core.run k s = .next s

/-- A fetch that reaches past memory raises `MemoryOutOfBounds` with no opcode recorded (R91). Rests on the spec's own D9. -/
def Obligations.FetchPastMemoryFaults : Prop :=
  ∀ s : State, s.halted = false → config.memSize ≤ s.pc.toNat + 1 → step s = .next (faulted s .memoryOutOfBounds none)

/-- A running core always answers a next state. It is the state before the step with the fault recorded, nothing else changed and
no tick, exactly when the fetch or the instruction's one condition in R180 says so; in every other case no fault is recorded. The
frozen state and the record rest on the spec's own D9, D10, D11, D12, D22. -/
def Obligations.StepFaultsExactlyWhen : Prop :=
  ∀ s : State, s.halted = false → ∃ t, step s = .next t ∧
    match stepFault s with
    | some (kind, opcode) => t = faulted s kind opcode
    | none => t.halted = false ∧ t.fault = s.fault

/-- `pc` at the end of every step is what the table of R26 says, and keeps the value `a` on a step that faults. `SYS` as
any other instruction rests on the spec's own D7 (log 7), `SKP` and `SKNP` with `V[x]` above 15 on D16 (log 14), the key wait done at
the first key down on D18 (log 15), `JP V0` above 0xFFF on D27 (log 20), a `pc` kept by a fault on D10 (log 11). -/
def Obligations.PcAfterEveryStep : Prop :=
  ∀ s : State, s.halted = false → ∃ t, step s = .next t ∧
    t.pc = if stepFault s = none then pcAfter (decodeWord (wordAtPc s)) s else s.pc

/-- The tick comes after the instruction, in the same step: each timer, as the instruction left it, falls by 1 when nonzero and
the step's `tick` is 1, and is unchanged otherwise; at most one decrement a step (R94). The `tick` input is the spec's own D3 (log 2). -/
def Obligations.TimersTickAfterTheInstruction : Prop :=
  ∀ s t u : State, s.halted = false → stepFault s = none → exec (decodeWord (wordAtPc s)) s = .next u → step s = .next t →
    t.dt.toNat = u.dt.toNat - (if s.input.tick then 1 else 0) ∧ t.st.toNat = u.st.toNat - (if s.input.tick then 1 else 0)

/-- An instruction is unaffected by an input it does not read: `keys` is read only by `SKP`, `SKNP` and `LD Vx, K`, `rnd` only by
`RND`, and no instruction reads `tick` (R95). Inputs sampled once a step: the spec's own D3, D4, D5 (log 2). -/
def Obligations.UnreadInputsDoNotMatter : Prop :=
  ∀ (i : Instr) (s t : State) (a b : Input) (rest : List Input),
    (readsKeys i = true → a.keys = b.keys) → (readsRnd i = true → a.rnd = b.rnd) →
    exec i { s with inputs := a :: rest } = .next t → exec i { s with inputs := b :: rest } = .next { t with inputs := b :: rest }

/-- Every instruction completes: it answers a next state in every state, with its fault taken when R180 says so (the record and
the frozen state rest on D10, D11, D12), and otherwise changing no part of the state but the ones it may touch. -/
def Obligations.EveryInstructionCompletesWithItsFrame : Prop :=
  ∀ (i : Instr) (s : State), ∃ t, exec i s = .next t ∧
    match faultOf i s with
    | some kind => t = faulted s kind (some (encode i))
    | none => KeepsAllBut (touches i) s t

/-- No instruction writes a register but the one it names as its destination, `VF` for the six flag-producing ones, and
`V[0]`..`V[x]` for the bulk load; in particular `VF` is written implicitly by those six only (R21, R23). -/
def Obligations.RegistersWrittenOnlyAsNamed : Prop :=
  ∀ (i : Instr) (s t : State) (r : Nibble), exec i s = .next t → mayWriteReg r i = false → t.reg r = s.reg r

/-! ## Control transfer (41_control_transfer.md) -/

/-- `SYS` does nothing but advance `pc` (R100), whatever word it came from. Rests on the spec's own D7. -/
def Obligations.SysOnlyAdvancesPc : Prop :=
  ∀ (op : Nibble) (nnn : Addr) (s : State),
    ∃ t, exec (.sys op nnn) s = .next t ∧ t.pc = s.pc + 2 ∧ KeepsAllBut [.pc] s t

/-- `JP nnn` (R101): no target is checked, though one of 0xFFF makes the next fetch, and so a running core's next step, fault; a
jump to its own address changes nothing. -/
def Obligations.JpSetsPc : Prop :=
  ∀ (nnn : Addr) (s : State), decodeWord (0x1#4 ++ nnn) = .jp nnn ∧
    ∃ t, exec (.jp nnn) s = .next t ∧ t.pc.toNat = nnn.toNat ∧ KeepsAllBut [.pc] s t ∧
      (nnn = 0xFFF → t.fetch = none ∧ (s.halted = false →
        ∃ u, step t = .next u ∧ u.halted = true ∧ u.fault.map FaultRecord.kind = some .memoryOutOfBounds)) ∧
      (s.pc.toNat = nnn.toNat → KeepsAllBut [] s t)

/-- `CALL nnn` (R102): with a slot free it pushes the address of the following instruction and jumps; with 16 return addresses
live it raises `StackOverflow` and pushes nothing. -/
def Obligations.CallPushesAndJumps : Prop :=
  ∀ (nnn : Addr) (s : State), decodeWord (0x2#4 ++ nnn) = .call nnn ∧
    (s.sp.val < 16 → ∃ t, exec (.call nnn) s = .next t ∧ t.sp.val = s.sp.val + 1 ∧
      (∀ k, t.slot k = if k = s.sp.val + 1 then s.pc + 2 else s.slot k) ∧
      t.pc.toNat = nnn.toNat ∧ KeepsAllBut [.pc, .stack] s t) ∧
    (s.sp.val = 16 → Raises .stackOverflow (.call nnn) s)

/-- `RET` (R103): pops the top return address into `pc`, the slots keeping their values; with an empty stack it raises
`StackUnderflow`. -/
def Obligations.RetPopsIntoPc : Prop :=
  ∀ s : State, decodeWord 0x00EE = .ret ∧
    (0 < s.sp.val → ∃ t, exec .ret s = .next t ∧ t.sp.val + 1 = s.sp.val ∧ t.pc = s.slot s.sp.val ∧
      (∀ k, t.slot k = s.slot k) ∧ KeepsAllBut [.pc, .stack] s t) ∧
    (s.sp.val = 0 → Raises .stackUnderflow .ret s)

/-- `JP V0, nnn` (R104): the sum is not reduced to 12 bits. Rests on the spec's own D27. -/
def Obligations.JpV0AddsRegisterZero : Prop :=
  ∀ (nnn : Addr) (s : State), ∃ t, exec (.jpV0 nnn) s = .next t ∧ t.pc.toNat = nnn.toNat + (s.reg 0).toNat ∧ KeepsAllBut [.pc] s t

/-! ## Conditional skips (42_conditional_skip.md) -/

/-- `SE Vx, kk` and `SNE Vx, kk` (R110, R111). -/
def Obligations.SkipsOnImmediate : Prop :=
  ∀ (x : Nibble) (kk : Byte) (s : State),
    (decodeWord (0x3#4 ++ x ++ kk) = .seImm x kk ∧ ∃ t, exec (.seImm x kk) s = .next t ∧
      t.pc = (if s.reg x = kk then s.pc + 4 else s.pc + 2) ∧ KeepsAllBut [.pc] s t) ∧
    (decodeWord (0x4#4 ++ x ++ kk) = .sneImm x kk ∧ ∃ t, exec (.sneImm x kk) s = .next t ∧
      t.pc = (if s.reg x = kk then s.pc + 2 else s.pc + 4) ∧ KeepsAllBut [.pc] s t)

/-- `SE Vx, Vy` and `SNE Vx, Vy` (R112, R113); with a last nibble other than 0 the word is `SYS`,
carrying its low 12 bits. -/
def Obligations.SkipsOnRegister : Prop :=
  ∀ (x y : Nibble) (s : State),
    (decodeWord (0x5#4 ++ x ++ y ++ 0x0#4) = .seReg x y ∧ ∃ t, exec (.seReg x y) s = .next t ∧
      t.pc = (if s.reg x = s.reg y then s.pc + 4 else s.pc + 2) ∧ KeepsAllBut [.pc] s t) ∧
    (∀ n : Nibble, n ≠ 0 → ∃ op, decodeWord (0x5#4 ++ x ++ y ++ n) = .sys op (x ++ y ++ n)) ∧
    (decodeWord (0x9#4 ++ x ++ y ++ 0x0#4) = .sneReg x y ∧ ∃ t, exec (.sneReg x y) s = .next t ∧
      t.pc = (if s.reg x = s.reg y then s.pc + 2 else s.pc + 4) ∧ KeepsAllBut [.pc] s t) ∧
    (∀ n : Nibble, n ≠ 0 → ∃ op, decodeWord (0x9#4 ++ x ++ y ++ n) = .sys op (x ++ y ++ n))

/-! ## Register load and the ALU (43_alu.md) -/

/-- `LD Vx, kk` (R122). -/
def Obligations.LoadImmediateSetsRegister : Prop :=
  ∀ (x : Nibble) (kk : Byte) (s : State), decodeWord (0x6#4 ++ x ++ kk) = .ldImm x kk ∧
    ∃ t, exec (.ldImm x kk) s = .next t ∧ t.reg x = kk ∧ (∀ r, r ≠ x → t.reg r = s.reg r) ∧ t.pc = s.pc + 2 ∧
      KeepsAllBut [.pc, .regs] s t

/-- `ADD Vx, kk` (R123): wraps modulo 256 and writes no flag. -/
def Obligations.AddImmediateWraps : Prop :=
  ∀ (x : Nibble) (kk : Byte) (s : State), decodeWord (0x7#4 ++ x ++ kk) = .addImm x kk ∧
    ∃ t, exec (.addImm x kk) s = .next t ∧ (t.reg x).toNat = ((s.reg x).toNat + kk.toNat) % 256 ∧
      (∀ r, r ≠ x → t.reg r = s.reg r) ∧ t.pc = s.pc + 2 ∧ KeepsAllBut [.pc, .regs] s t

/-- `LD Vx, Vy` (R124). That it exists rests on the spec's own D30. -/
def Obligations.LoadRegisterCopies : Prop :=
  ∀ (x y : Nibble) (s : State),
    ∃ t, exec (.ldReg x y) s = .next t ∧ t.reg x = s.reg y ∧ (∀ r, r ≠ x → t.reg r = s.reg r) ∧ t.pc = s.pc + 2 ∧
      KeepsAllBut [.pc, .regs] s t

/-- `OR`, `AND` and `XOR` (R125, R126, R127): bit by bit, with no flag written. -/
def Obligations.BitwiseOperations : Prop :=
  ∀ (x y : Nibble) (s : State),
    (decodeWord (0x8#4 ++ x ++ y ++ 0x1#4) = .orReg x y ∧ ∃ t, exec (.orReg x y) s = .next t ∧
      (∀ k < 8, (t.reg x).getLsbD k = ((s.reg x).getLsbD k || (s.reg y).getLsbD k)) ∧
      (∀ r, r ≠ x → t.reg r = s.reg r) ∧ t.pc = s.pc + 2 ∧ KeepsAllBut [.pc, .regs] s t) ∧
    (decodeWord (0x8#4 ++ x ++ y ++ 0x2#4) = .andReg x y ∧ ∃ t, exec (.andReg x y) s = .next t ∧
      (∀ k < 8, (t.reg x).getLsbD k = ((s.reg x).getLsbD k && (s.reg y).getLsbD k)) ∧
      (∀ r, r ≠ x → t.reg r = s.reg r) ∧ t.pc = s.pc + 2 ∧ KeepsAllBut [.pc, .regs] s t) ∧
    (decodeWord (0x8#4 ++ x ++ y ++ 0x3#4) = .xorReg x y ∧ ∃ t, exec (.xorReg x y) s = .next t ∧
      (∀ k < 8, (t.reg x).getLsbD k = ((s.reg x).getLsbD k ^^ (s.reg y).getLsbD k)) ∧
      (∀ r, r ≠ x → t.reg r = s.reg r) ∧ t.pc = s.pc + 2 ∧ KeepsAllBut [.pc, .regs] s t)

/-- `ADD Vx, Vy` (R128): the sum modulo 256, and `VF` the carry out; with `x = 15` the sum stays in `VF`, which rests on the spec's
own D13 (R121). -/
def Obligations.AddRegisterSetsCarry : Prop :=
  ∀ (x y : Nibble) (s : State), ∃ t, exec (.addReg x y) s = .next t ∧
    (t.reg x).toNat = ((s.reg x).toNat + (s.reg y).toNat) % 256 ∧
    (x ≠ 15 → t.reg 15 = if (s.reg x).toNat + (s.reg y).toNat > 255 then 1 else 0) ∧
    (∀ r, r ≠ x → r ≠ 15 → t.reg r = s.reg r) ∧ t.pc = s.pc + 2 ∧ KeepsAllBut [.pc, .regs] s t

/-- `SUB Vx, Vy` and `SUBN Vx, Vy` (R129, R131): the difference modulo 256, and `VF` 1 when no borrow is needed; with `x = 15` the
difference stays in `VF`, which rests on the spec's own D13 (R121). -/
def Obligations.SubtractionsSetNoBorrow : Prop :=
  ∀ (x y : Nibble) (s : State),
    (∃ t, exec (.sub x y) s = .next t ∧
      (t.reg x).toNat = ((s.reg x).toNat + 256 - (s.reg y).toNat) % 256 ∧
      (x ≠ 15 → t.reg 15 = if (s.reg x).toNat ≥ (s.reg y).toNat then 1 else 0) ∧
      (∀ r, r ≠ x → r ≠ 15 → t.reg r = s.reg r) ∧ t.pc = s.pc + 2 ∧ KeepsAllBut [.pc, .regs] s t) ∧
    (∃ t, exec (.subn x y) s = .next t ∧
      (t.reg x).toNat = ((s.reg y).toNat + 256 - (s.reg x).toNat) % 256 ∧
      (x ≠ 15 → t.reg 15 = if (s.reg y).toNat ≥ (s.reg x).toNat then 1 else 0) ∧
      (∀ r, r ≠ x → r ≠ 15 → t.reg r = s.reg r) ∧ t.pc = s.pc + 2 ∧ KeepsAllBut [.pc, .regs] s t)

/-- `SHR Vx {, Vy}` and `SHL Vx {, Vy}` (R130, R132): half rounded down and double modulo 256, whatever `y` is, and `VF` the bit
shifted out; with `x = 15` the result stays in `VF`, which rests on the spec's own D13 (R121). -/
def Obligations.ShiftsMoveABitOut : Prop :=
  ∀ (x y : Nibble) (s : State),
    (∃ t, exec (.shr x y) s = .next t ∧ (t.reg x).toNat = (s.reg x).toNat / 2 ∧
      (x ≠ 15 → (t.reg 15).toNat = (s.reg x).toNat % 2) ∧
      (∀ r, r ≠ x → r ≠ 15 → t.reg r = s.reg r) ∧ t.pc = s.pc + 2 ∧ KeepsAllBut [.pc, .regs] s t) ∧
    (∃ t, exec (.shl x y) s = .next t ∧ (t.reg x).toNat = (s.reg x).toNat * 2 % 256 ∧
      (x ≠ 15 → (t.reg 15).toNat = (s.reg x).toNat / 128) ∧
      (∀ r, r ≠ x → r ≠ 15 → t.reg r = s.reg r) ∧ t.pc = s.pc + 2 ∧ KeepsAllBut [.pc, .regs] s t)

/-! ## Address register and memory (44_address_and_memory.md) -/

/-- `LD I, nnn` (R140). -/
def Obligations.LoadAddressRegister : Prop :=
  ∀ (nnn : Addr) (s : State), decodeWord (0xA#4 ++ nnn) = .ldI nnn ∧
    ∃ t, exec (.ldI nnn) s = .next t ∧ t.i.toNat = nnn.toNat ∧ t.pc = s.pc + 2 ∧ KeepsAllBut [.pc, .addressReg] s t

/-- `ADD I, Vx` (R141): wraps modulo 65536, writes no flag, never faults. Rests on the spec's own D14. -/
def Obligations.AddToAddressRegister : Prop :=
  ∀ (x : Nibble) (s : State),
    ∃ t, exec (.addI x) s = .next t ∧ t.i.toNat = (s.i.toNat + (s.reg x).toNat) % 65536 ∧ t.pc = s.pc + 2 ∧
      KeepsAllBut [.pc, .addressReg] s t

/-- `LD F, Vx` (R142): five bytes a glyph from address 0; a digit above 15 raises `GlyphIndexOutOfRange`. -/
def Obligations.LoadGlyphAddress : Prop :=
  ∀ (x : Nibble) (s : State), decodeWord (0xF#4 ++ x ++ 0x29#8) = .ldGlyph x ∧
    ((s.reg x).toNat ≤ 15 → ∃ t, exec (.ldGlyph x) s = .next t ∧ t.i.toNat = 5 * (s.reg x).toNat ∧ t.pc = s.pc + 2 ∧
      KeepsAllBut [.pc, .addressReg] s t) ∧
    (15 < (s.reg x).toNat → Raises .glyphIndexOutOfRange (.ldGlyph x) s)

/-- `LD B, Vx` (R143): the three decimal digits at `I`, `I + 1`, `I + 2`, every other byte as before; a range that leaves memory
raises `MemoryOutOfBounds`. Memory is in canonical form (the invariant `StepKeepsInvariant`). -/
def Obligations.StoreDecimalDigits : Prop :=
  ∀ (x : Nibble) (s : State), Memory.wf s.mem = true → decodeWord (0xF#4 ++ x ++ 0x33#8) = .ldBcd x ∧
    (s.i.toNat + 2 < config.memSize → ∃ t, exec (.ldBcd x) s = .next t ∧
      (t.memByte s.i.toNat).toNat = (s.reg x).toNat / 100 ∧
      (t.memByte (s.i.toNat + 1)).toNat = (s.reg x).toNat / 10 % 10 ∧
      (t.memByte (s.i.toNat + 2)).toNat = (s.reg x).toNat % 10 ∧
      (∀ a, a < s.i.toNat ∨ s.i.toNat + 2 < a → t.memByte a = s.memByte a) ∧ t.pc = s.pc + 2 ∧
      KeepsAllBut [.pc, .memory] s t) ∧
    (config.memSize ≤ s.i.toNat + 2 → Raises .memoryOutOfBounds (.ldBcd x) s)

/-- `LD [I], Vx` (R144): `V[k]` at `I + k` for `k` up to and with `x`, every other byte as before; a range that leaves memory raises
`MemoryOutOfBounds`. Memory is in canonical form (the invariant `StepKeepsInvariant`). -/
def Obligations.StoreRegistersToMemory : Prop :=
  ∀ (x : Nibble) (s : State), Memory.wf s.mem = true → decodeWord (0xF#4 ++ x ++ 0x55#8) = .storeRegs x ∧
    (s.i.toNat + x.toNat < config.memSize → ∃ t, exec (.storeRegs x) s = .next t ∧
      (∀ k : Nibble, k.toNat ≤ x.toNat → t.memByte (s.i.toNat + k.toNat) = s.reg k) ∧
      (∀ a, a < s.i.toNat ∨ s.i.toNat + x.toNat < a → t.memByte a = s.memByte a) ∧ t.pc = s.pc + 2 ∧
      KeepsAllBut [.pc, .memory] s t) ∧
    (config.memSize ≤ s.i.toNat + x.toNat → Raises .memoryOutOfBounds (.storeRegs x) s)

/-- `LD Vx, [I]` (R145): `V[k]` from `I + k` for `k` up to and with `x`, every other register as before; a range that leaves memory
raises `MemoryOutOfBounds`. -/
def Obligations.LoadRegistersFromMemory : Prop :=
  ∀ (x : Nibble) (s : State), decodeWord (0xF#4 ++ x ++ 0x65#8) = .loadRegs x ∧
    (s.i.toNat + x.toNat < config.memSize → ∃ t, exec (.loadRegs x) s = .next t ∧
      (∀ k : Nibble, t.reg k = if k.toNat ≤ x.toNat then s.memByte (s.i.toNat + k.toNat) else s.reg k) ∧ t.pc = s.pc + 2 ∧
      KeepsAllBut [.pc, .regs] s t) ∧
    (config.memSize ≤ s.i.toNat + x.toNat → Raises .memoryOutOfBounds (.loadRegs x) s)

/-- Stores are seen by later fetches with nothing in between (R65): after `LD [I], Vx` or `LD B, Vx`, a fetch anywhere reads each
byte the instruction has just stored, in whichever half of the fetched word it lies. Memory is in canonical form (the invariant
`StepKeepsInvariant`). -/
def Obligations.StoredBytesAreFetched : Prop :=
  ∀ (x : Nibble) (s t : State) (target : Word), Memory.wf s.mem = true → target.toNat + 1 < config.memSize →
    (s.i.toNat + x.toNat < config.memSize → exec (.storeRegs x) s = .next t →
      ∃ hi lo : Byte, State.fetch { t with pc := target } = some (hi ++ lo) ∧
        ∀ k : Nibble, k.toNat ≤ x.toNat →
          (target.toNat = s.i.toNat + k.toNat → hi = s.reg k) ∧ (target.toNat + 1 = s.i.toNat + k.toNat → lo = s.reg k)) ∧
    (s.i.toNat + 2 < config.memSize → exec (.ldBcd x) s = .next t →
      ∃ hi lo : Byte, State.fetch { t with pc := target } = some (hi ++ lo) ∧
        ∀ k < 3, (target.toNat = s.i.toNat + k → hi.toNat = (s.reg x).toNat / 10 ^ (2 - k) % 10) ∧
          (target.toNat + 1 = s.i.toNat + k → lo.toNat = (s.reg x).toNat / 10 ^ (2 - k) % 10))

/-! ## Random, display, keys, timers (45_random.md to 48_timers.md) -/

/-- `RND Vx, kk` (R150): the step's `rnd` input, whatever it is, masked by `kk`; no flag. The free input is the spec's own D4
(log 2). -/
def Obligations.RandomByteIsMasked : Prop :=
  ∀ (x : Nibble) (kk : Byte) (s : State),
    ∃ t, exec (.rnd x kk) s = .next t ∧ (∀ k < 8, (t.reg x).getLsbD k = (s.input.rnd.getLsbD k && kk.getLsbD k)) ∧
      (∀ r, r ≠ x → t.reg r = s.reg r) ∧ t.pc = s.pc + 2 ∧ KeepsAllBut [.pc, .regs] s t

/-- `CLS` (R155): every pixel 0 and nothing else. -/
def Obligations.ClearScreenBlanks : Prop :=
  ∀ s : State, decodeWord 0x00E0 = .cls ∧
    ∃ t, exec .cls s = .next t ∧ (∀ cx cy, t.pixel cx cy = false) ∧ t.pc = s.pc + 2 ∧ KeepsAllBut [.pc, .screen] s t

/-- `DRW Vx, Vy, n` (R156, R157 (a), (b)): the pixel at `(V[x] + col) mod 64`, `(V[y] + row) mod 32` is XORed with bit `7 - col` of
the byte at `I + row`, every other pixel is as before, and `VF` is 1 exactly when some pixel went from 1 to 0; a range that leaves
memory raises `MemoryOutOfBounds`. The bit order rests on the spec's own D19, `n = 0` on D20, coordinates in `VF` on D13. -/
def Obligations.DrawSpriteXorsPixels : Prop :=
  ∀ (x y n : Nibble) (s : State),
    (n.toNat = 0 ∨ s.i.toNat + n.toNat ≤ config.memSize → ∃ t, exec (.drw x y n) s = .next t ∧
      (∀ row col (cx : Fin 64) (cy : Fin 32), row < n.toNat → col < 8 →
        cx.val = ((s.reg x).toNat + col) % 64 → cy.val = ((s.reg y).toNat + row) % 32 →
        t.pixel cx cy = (s.pixel cx cy ^^ (s.memByte (s.i.toNat + row)).getLsbD (7 - col))) ∧
      (∀ (cx : Fin 64) (cy : Fin 32), (∀ row col, row < n.toNat → col < 8 →
        ¬(cx.val = ((s.reg x).toNat + col) % 64 ∧ cy.val = ((s.reg y).toNat + row) % 32)) → t.pixel cx cy = s.pixel cx cy) ∧
      (t.reg 15 = 0 ∨ t.reg 15 = 1) ∧
      (t.reg 15 = 1 ↔ ∃ cx cy, s.pixel cx cy = true ∧ t.pixel cx cy = false) ∧
      (∀ r, r ≠ 15 → t.reg r = s.reg r) ∧ t.pc = s.pc + 2 ∧ KeepsAllBut [.pc, .regs, .screen] s t) ∧
    (0 < n.toNat → config.memSize < s.i.toNat + n.toNat → Raises .memoryOutOfBounds (.drw x y n) s)

/-- Drawing the same sprite twice at the same place restores every pixel, and the second draw gives `VF` = 1 exactly when the first
draw lit a pixel that was 0 (R157 (c), (d); C4 of 90_conflicts.md). -/
def Obligations.DoubleDrawRestoresTheScreen : Prop :=
  ∀ (x y n : Nibble) (s t u : State), s.halted = false → exec (.drw x y n) s = .next t → t.halted = false →
    t.reg x = s.reg x → t.reg y = s.reg y → exec (.drw x y n) t = .next u →
    (∀ cx cy, u.pixel cx cy = s.pixel cx cy) ∧
    (u.reg 15 = 1 ↔ ∃ cx cy, s.pixel cx cy = false ∧ t.pixel cx cy = true)

/-- `SKP Vx` and `SKNP Vx` (R167, R168): whether key `V[x]` is down; a number above 15 names no key, which rests on the spec's own
D16 (R165). -/
def Obligations.KeyQueriesSkip : Prop :=
  ∀ (x : Nibble) (s : State),
    (∃ t, exec (.skp x) s = .next t ∧
      t.pc = (if (s.reg x).toNat ≤ 15 ∧ s.input.keys.getLsbD (s.reg x).toNat = true then s.pc + 4 else s.pc + 2) ∧
      KeepsAllBut [.pc] s t) ∧
    (∃ t, exec (.sknp x) s = .next t ∧
      t.pc = (if (s.reg x).toNat ≤ 15 ∧ s.input.keys.getLsbD (s.reg x).toNat = true then s.pc + 2 else s.pc + 4) ∧
      KeepsAllBut [.pc] s t)

/-- `LD Vx, K` (R169): with no key down nothing changes and `pc` is back at the instruction; otherwise the number of the lowest key
down is stored. The lowest key rests on the spec's own D17 (R166), completion at once on D18. -/
def Obligations.KeyWaitSpinsOrStores : Prop :=
  ∀ (x : Nibble) (s : State),
    (s.input.keys = 0 → ∃ t, exec (.ldKey x) s = .next t ∧ KeepsAllBut [] s t) ∧
    (∀ k < 16, s.input.keys.getLsbD k = true → (∀ j < k, s.input.keys.getLsbD j = false) →
      ∃ t, exec (.ldKey x) s = .next t ∧ (t.reg x).toNat = k ∧ (∀ r, r ≠ x → t.reg r = s.reg r) ∧ t.pc = s.pc + 2 ∧
        KeepsAllBut [.pc, .regs] s t)

/-- "with no key pressed, stepping the key-wait instruction N times leaves the program counter unchanged ... and the destination
register unmodified" (R169, source example S8): over the `n` steps each timer falls by one for every tick, 0 staying 0, and of the
model's own input fields (log 2) the `n` settled inputs are used up and counted. -/
def Obligations.KeyWaitSpinsWhileNoKeyIsDown : Prop :=
  ∀ (x : Nibble) (s : State) (n : Nat), s.halted = false → s.pc.toNat + 1 < config.memSize →
    decodeWord (wordAtPc s) = .ldKey x → n ≤ s.inputs.length → (∀ inp ∈ s.inputs.take n, inp.keys = 0) →
    ∃ t, Sys2Proof.core.run n s = .next t ∧ KeepsAllBut [.delayTimer, .soundTimer, .host] s t ∧
      t.dt.toNat = s.dt.toNat - (s.inputs.take n).countP Input.tick ∧
      t.st.toNat = s.st.toNat - (s.inputs.take n).countP Input.tick ∧
      t.inputs = s.inputs.drop n ∧ t.drawn = s.drawn + n

/-- `LD Vx, DT`, `LD DT, Vx` and `LD ST, Vx` (R175, R176, R177): each reads or writes before the tick of its own step, which then
decrements the timer it read or the value just written, 0 staying 0. -/
def Obligations.TimerInstructions : Prop :=
  ∀ (x : Nibble) (s : State),
    (decodeWord (0xF#4 ++ x ++ 0x07#8) = .ldFromDt x ∧ ∃ t, exec (.ldFromDt x) s = .next t ∧ t.reg x = s.dt ∧
      (∀ r, r ≠ x → t.reg r = s.reg r) ∧ t.pc = s.pc + 2 ∧ KeepsAllBut [.pc, .regs] s t) ∧
    (decodeWord (0xF#4 ++ x ++ 0x15#8) = .ldToDt x ∧ ∃ t, exec (.ldToDt x) s = .next t ∧ t.dt = s.reg x ∧ t.pc = s.pc + 2 ∧
      KeepsAllBut [.pc, .delayTimer] s t) ∧
    (decodeWord (0xF#4 ++ x ++ 0x18#8) = .ldToSt x ∧ ∃ t, exec (.ldToSt x) s = .next t ∧ t.st = s.reg x ∧ t.pc = s.pc + 2 ∧
      KeepsAllBut [.pc, .soundTimer] s t) ∧
    (s.halted = false → s.pc.toNat + 1 < config.memSize →
      (wordAtPc s = 0xF#4 ++ x ++ 0x07#8 → ∃ t, step s = .next t ∧ t.reg x = s.dt ∧
        t.dt.toNat = s.dt.toNat - (if s.input.tick then 1 else 0)) ∧
      (wordAtPc s = 0xF#4 ++ x ++ 0x15#8 → ∃ t, step s = .next t ∧
        t.dt.toNat = (s.reg x).toNat - (if s.input.tick then 1 else 0)) ∧
      (wordAtPc s = 0xF#4 ++ x ++ 0x18#8 → ∃ t, step s = .next t ∧
        t.st.toNat = (s.reg x).toNat - (if s.input.tick then 1 else 0)))

/-! ## Reset, launch and invariants (10_state.md, 70_reset_and_hazards.md) -/

/-- What reset leaves (R44, R211). The glyph bytes rest on the spec's own D24, `I` and the framebuffer on D23; nothing is said of
the model's own fields. -/
def Obligations.ResetLeaves : Prop :=
  (∀ r, State.reset.reg r = 0) ∧ State.reset.i = 0 ∧ State.reset.pc = 0x200 ∧ State.reset.sp = 0 ∧
  (∀ k, State.reset.slot k = 0) ∧ State.reset.dt = 0 ∧ State.reset.st = 0 ∧
  (∀ a, State.reset.memByte a = if h : a < glyphTable.length then glyphTable[a] else 0) ∧ glyphTable.length = 80 ∧
  (∀ cx cy, State.reset.pixel cx cy = false) ∧ State.reset.halted = false ∧ State.reset.fault = none

/-- Reset by the host leaves the halted state, clears the record and the loaded program (R38, R210), and leaves the host's inputs
to the host (the model's choice, log 27). -/
def Obligations.HostResetRestoresReset : Prop :=
  ∀ s : State, KeepsAllBut [.host] State.reset s.hostReset ∧ Part.host.same s s.hostReset

/-- The load contract (R216) and the launch state (R218): an image of at most 3584 bytes lies at 0x200 on, and everything else is
as after reset; a longer one is refused, which rests on the spec's own D26 (U13). -/
def Obligations.LaunchLoadsTheImage : Prop :=
  ∀ image : List Byte,
    (image.length ≤ 3584 → ∃ t, launch image = .next t ∧
      (∀ a, t.memByte a = if 0x200 ≤ a ∧ a < 0x200 + image.length then image.getD (a - 0x200) 0 else State.reset.memByte a) ∧
      Memory.wf t.mem = true ∧ KeepsAllBut [.memory] State.reset t) ∧
    (3584 < image.length → launch image = .refused .imageTooLong)

/-- The word placed by `State.withFetchWord` is the very next one a step runs, from any state whose memory is in canonical form
(the model's own operation, log 25). -/
def Obligations.PlacedWordRunsNext : Prop :=
  ∀ (s : State) (w : Word), Memory.wf s.mem = true →
    step (s.withFetchWord 16 w.toNat) = finish (exec (decodeWord w) (s.withFetchWord 16 w.toNat))

/-- A jump to its own address is the endless loop: the state no longer changes but for the timers (R101, R226; the convention is
the spec's own D32) and the model's own input fields (log 2). -/
def Obligations.SelfJumpOnlyCountsTimers : Prop :=
  ∀ (s : State) (k : Nat), atSelfJump s = true →
    ∃ t, Sys2Proof.core.run k s = .next t ∧ atSelfJump t = true ∧ KeepsAllBut [.delayTimer, .soundTimer, .host] s t

/-- The invariant holds after reset. -/
def Obligations.InvariantAtReset : Prop := Inv State.reset

/-- Every step keeps the invariant: memory stays in canonical form (the model's own form, log 24), and the core is halted exactly
when a fault is recorded (R35, R187). -/
def Obligations.StepKeepsInvariant : Prop := ∀ s t : State, Inv s → step s = .next t → Inv t

/-- The bound on `pc` and the return addresses holds after reset. -/
def Obligations.PcBoundAtReset : Prop := PcInRange State.reset

/-- Every step keeps `pc` at most 0x10FE and every return address at most `MEM_SIZE`, so no arithmetic on `pc` ever wraps (R27). The
bound rests on the spec's own D1, D2, D27. -/
def Obligations.StepKeepsPcBound : Prop := ∀ s t : State, PcInRange s → step s = .next t → PcInRange t

/-! ## The return stack beyond one instruction (41_control_transfer.md) -/

/-- A slot above `sp` is dead: nothing can read it before a later `CALL` overwrites it (R103). Two states that differ in dead slots
only take the same step, and still differ in dead slots only. The numbering of the slots is the spec's own D28 (log 21). -/
def Obligations.DeadSlotsAreNeverRead : Prop :=
  ∀ (s t : State) (other : Vector Word 16), (∀ k ≤ s.sp.val, State.slot { s with stack := other } k = s.slot k) →
    step s = .next t →
    ∃ other' : Vector Word 16, step { s with stack := other } = .next { t with stack := other' } ∧
      ∀ k ≤ t.sp.val, State.slot { t with stack := other' } k = t.slot k
end

