-- ==== Sys2Proof/Laws/Decode.lean ====
section
/-! SUPPORT. The instruction formats (R72 to R75): the fields and the masked bits of a word put together from its fields. -/

namespace Sys2Proof

/-! ## Format NNN: `op ++ nnn` -/

theorem fieldOp_nnn (o : Nibble) (a : Addr) : fieldOp (o ++ a) = o := BitVec.extractLsb'_append_eq_left

theorem fieldNNN_nnn (o : Nibble) (a : Addr) : fieldNNN (o ++ a) = a :=
  (BitVec.extractLsb'_append_eq_of_add_le (Nat.le_refl 12)).trans BitVec.extractLsb'_eq_self

theorem mask_nnn (o : Nibble) (a : Addr) (mo : Nibble) (ma : Addr) :
    ((o ++ a : Word) &&& (mo ++ ma : Word)) = ((o &&& mo) ++ (a &&& ma) : Word) := BitVec.and_append

/-- Every word is its leading nibble and its address field. -/
theorem word_eq_nnn (w : Word) : w = fieldOp w ++ fieldNNN w :=
  ((BitVec.extractLsb'_append_extractLsb'_eq_extractLsb' (x := w) (start₁ := 0) (len₁ := 12) (start₂ := 12) (len₂ := 4) rfl).trans
    BitVec.extractLsb'_eq_self).symm

/-! ## Format XKK: `op ++ x ++ kk`; format X has a fixed `kk` -/

theorem fieldOp_xkk (o x : Nibble) (kk : Byte) : fieldOp (o ++ x ++ kk) = o :=
  (BitVec.extractLsb'_append_eq_of_le (xhi := o ++ x) (xlo := kk) (start := 12) (len := 4) (by decide)).trans
    BitVec.extractLsb'_append_eq_left

theorem fieldX_xkk (o x : Nibble) (kk : Byte) : fieldX (o ++ x ++ kk) = x :=
  (BitVec.extractLsb'_append_eq_of_le (xhi := o ++ x) (xlo := kk) (start := 8) (len := 4) (Nat.le_refl 8)).trans
    ((BitVec.extractLsb'_append_eq_of_add_le (xhi := o) (xlo := x) (start := 0) (len := 4) (Nat.le_refl 4)).trans
      BitVec.extractLsb'_eq_self)

theorem fieldKK_xkk (o x : Nibble) (kk : Byte) : fieldKK (o ++ x ++ kk) = kk :=
  (BitVec.extractLsb'_append_eq_of_add_le (xhi := o ++ x) (xlo := kk) (start := 0) (len := 8) (Nat.le_refl 8)).trans
    BitVec.extractLsb'_eq_self

theorem mask_xkk (o x : Nibble) (kk : Byte) (mo mx : Nibble) (mk : Byte) :
    ((o ++ x ++ kk : Word) &&& (mo ++ mx ++ mk : Word)) = ((o &&& mo) ++ (x &&& mx) ++ (kk &&& mk) : Word) :=
  (BitVec.and_append (x₁ := o ++ x) (x₂ := mo ++ mx)).trans (congrArg (· ++ (kk &&& mk)) BitVec.and_append)

/-! ## Formats XY and XYN: `op ++ x ++ y ++ n` -/

theorem xyn_eq_xkk (o x y n : Nibble) : (o ++ x ++ y ++ n : Word) = (o ++ x ++ (y ++ n : Byte) : Word) :=
  BitVec.eq_of_toNat_eq (congrArg BitVec.toNat (BitVec.append_assoc (x₁ := o ++ x) (x₂ := y) (x₃ := n)))

theorem fieldX_xyn (o x y n : Nibble) : fieldX (o ++ x ++ y ++ n) = x := by
  rw [xyn_eq_xkk]; exact fieldX_xkk o x (y ++ n)

theorem fieldY_xyn (o x y n : Nibble) : fieldY (o ++ x ++ y ++ n) = y :=
  (BitVec.extractLsb'_append_eq_of_le (xhi := o ++ x ++ y) (xlo := n) (start := 4) (len := 4) (Nat.le_refl 4)).trans
    ((BitVec.extractLsb'_append_eq_of_add_le (xhi := o ++ x) (xlo := y) (start := 0) (len := 4) (Nat.le_refl 4)).trans
      BitVec.extractLsb'_eq_self)

theorem fieldN_xyn (o x y n : Nibble) : fieldN (o ++ x ++ y ++ n) = n :=
  (BitVec.extractLsb'_append_eq_of_add_le (xhi := o ++ x ++ y) (xlo := n) (start := 0) (len := 4) (Nat.le_refl 4)).trans
    BitVec.extractLsb'_eq_self

theorem mask_xyn (o x y n mo mx my mn : Nibble) :
    ((o ++ x ++ y ++ n : Word) &&& (mo ++ mx ++ my ++ mn : Word)) =
      ((o &&& mo) ++ (x &&& mx) ++ (y &&& my) ++ (n &&& mn) : Word) :=
  (BitVec.and_append (x₁ := o ++ x ++ y) (x₂ := mo ++ mx ++ my)).trans
    (congrArg (fun v : BitVec 12 => (v ++ (n &&& mn) : Word)) ((BitVec.and_append (x₁ := o ++ x) (x₂ := mo ++ mx)).trans
      (congrArg (fun v : BitVec 8 => (v ++ (y &&& my) : BitVec 12)) BitVec.and_append)))

/-! ## Rows by mask (R76) -/

/-- A row with mask 0xF000 looks at the leading nibble only. -/
theorem mask_F000 (o : Nibble) (a : Addr) : ((o ++ a : Word) &&& 0xF000#16) = (o ++ 0#12 : Word) :=
  (mask_nnn o a 0xF#4 0#12).trans (by rw [show o &&& 0xF#4 = o from BitVec.and_allOnes, BitVec.and_zero])

/-- A row with mask 0xF00F looks at the leading and the lowest nibble. -/
theorem mask_F00F (o x y n : Nibble) : ((o ++ x ++ y ++ n : Word) &&& 0xF00F#16) = (o ++ 0#4 ++ 0#4 ++ n : Word) :=
  (mask_xyn o x y n 0xF#4 0#4 0#4 0xF#4).trans (by
    rw [show o &&& 0xF#4 = o from BitVec.and_allOnes, show n &&& 0xF#4 = n from BitVec.and_allOnes, BitVec.and_zero, BitVec.and_zero])

/-- A row with mask 0xF0FF looks at the leading nibble and the low byte. -/
theorem mask_F0FF (o x : Nibble) (kk : Byte) : ((o ++ x ++ kk : Word) &&& 0xF0FF#16) = (o ++ 0#4 ++ kk : Word) :=
  (mask_xkk o x kk 0xF#4 0#4 0xFF#8).trans (by
    rw [show o &&& 0xF#4 = o from BitVec.and_allOnes, show kk &&& 0xFF#8 = kk from BitVec.and_allOnes, BitVec.and_zero])

theorem xkk_eq_nnn (o x : Nibble) (kk : Byte) : (o ++ x ++ kk : Word) = (o ++ (x ++ kk : Addr) : Word) :=
  BitVec.eq_of_toNat_eq (congrArg BitVec.toNat (BitVec.append_assoc (x₁ := o) (x₂ := x) (x₃ := kk)))

end Sys2Proof
end

