-- ==== Sys2Proof/Laws/State.lean ====
section
/-! SUPPORT. One lemma per field per update of State, true by rfl; the parameters of R7 against the types. -/

namespace Sys2Proof.Machine

@[simp] theorem config_memSize : config.memSize = 4096 := rfl
@[simp] theorem config_loadAddr : config.loadAddr = 0x200 := rfl
@[simp] theorem config_glyphBase : config.glyphBase = 0 := rfl
@[simp] theorem config_glyphBytes : config.glyphBytes = 5 := rfl
@[simp] theorem config_instrBytes : config.instrBytes = 2 := rfl
@[simp] theorem config_numKeys : config.numKeys = 16 := rfl
@[simp] theorem config_sysAction : config.sysAction = .noOp := rfl
@[simp] theorem config_glyphs : config.glyphs = conventionalGlyphs := rfl
@[simp] theorem glyphTable_eq : glyphTable = conventionalGlyphs := rfl
@[simp] theorem flagReg_eq : flagReg = 15#4 := rfl

/-- The widths and counts of the table of R7 are the ones the types of `State` and `Input` have. -/
theorem config_agrees_with_types (s : State) (inp : Input) :
    s.v.toList.length = config.numRegs ∧ s.stack.toList.length = config.stackDepth ∧
    s.fb.toList.length = config.fbHeight ∧ (∀ row ∈ s.fb.toList, row.toList.length = config.fbWidth) ∧
    glyphTable.length = 16 * config.glyphBytes ∧ s.sp.val ≤ config.stackDepth ∧
    s.i.toNat < 2 ^ config.iWidth ∧ s.pc.toNat < 2 ^ config.pcWidth ∧ s.dt.toNat < 2 ^ config.timerWidth ∧
    (∀ k, (s.slot k).toNat < 2 ^ config.stackEntryWidth) ∧ (∀ r, (s.reg r).toNat < 2 ^ config.regWidth) ∧
    inp.keys.toNat < 2 ^ config.numKeys := by
  refine ⟨by simp [config], by simp [config], by simp [config], by simp [config], rfl, Nat.lt_succ_iff.mp s.sp.isLt,
    s.i.isLt, s.pc.isLt, s.dt.isLt, fun k => (s.slot k).isLt, fun r => (s.reg r).isLt, inp.keys.isLt⟩

/-! `State.advance` -/
@[simp] theorem State.advance_v (s : State) : s.advance.v = s.v := rfl
@[simp] theorem State.advance_i (s : State) : s.advance.i = s.i := rfl
@[simp] theorem State.advance_pc (s : State) : s.advance.pc = s.pc + 2 := rfl
@[simp] theorem State.advance_sp (s : State) : s.advance.sp = s.sp := rfl
@[simp] theorem State.advance_stack (s : State) : s.advance.stack = s.stack := rfl
@[simp] theorem State.advance_dt (s : State) : s.advance.dt = s.dt := rfl
@[simp] theorem State.advance_st (s : State) : s.advance.st = s.st := rfl
@[simp] theorem State.advance_mem (s : State) : s.advance.mem = s.mem := rfl
@[simp] theorem State.advance_fb (s : State) : s.advance.fb = s.fb := rfl
@[simp] theorem State.advance_halted (s : State) : s.advance.halted = s.halted := rfl
@[simp] theorem State.advance_fault (s : State) : s.advance.fault = s.fault := rfl
@[simp] theorem State.advance_inputs (s : State) : s.advance.inputs = s.inputs := rfl
@[simp] theorem State.advance_drawn (s : State) : s.advance.drawn = s.drawn := rfl

/-! `State.setReg` -/
@[simp] theorem State.setReg_v (s : State) (x : Nibble) (b : Byte) : (s.setReg x b).v = s.v.set x.toNat b x.isLt := rfl
@[simp] theorem State.setReg_i (s : State) (x : Nibble) (b : Byte) : (s.setReg x b).i = s.i := rfl
@[simp] theorem State.setReg_pc (s : State) (x : Nibble) (b : Byte) : (s.setReg x b).pc = s.pc := rfl
@[simp] theorem State.setReg_sp (s : State) (x : Nibble) (b : Byte) : (s.setReg x b).sp = s.sp := rfl
@[simp] theorem State.setReg_stack (s : State) (x : Nibble) (b : Byte) : (s.setReg x b).stack = s.stack := rfl
@[simp] theorem State.setReg_dt (s : State) (x : Nibble) (b : Byte) : (s.setReg x b).dt = s.dt := rfl
@[simp] theorem State.setReg_st (s : State) (x : Nibble) (b : Byte) : (s.setReg x b).st = s.st := rfl
@[simp] theorem State.setReg_mem (s : State) (x : Nibble) (b : Byte) : (s.setReg x b).mem = s.mem := rfl
@[simp] theorem State.setReg_fb (s : State) (x : Nibble) (b : Byte) : (s.setReg x b).fb = s.fb := rfl
@[simp] theorem State.setReg_halted (s : State) (x : Nibble) (b : Byte) : (s.setReg x b).halted = s.halted := rfl
@[simp] theorem State.setReg_fault (s : State) (x : Nibble) (b : Byte) : (s.setReg x b).fault = s.fault := rfl
@[simp] theorem State.setReg_inputs (s : State) (x : Nibble) (b : Byte) : (s.setReg x b).inputs = s.inputs := rfl
@[simp] theorem State.setReg_drawn (s : State) (x : Nibble) (b : Byte) : (s.setReg x b).drawn = s.drawn := rfl

/-! `State.setRegs` -/
@[simp] theorem State.setRegs_v (s : State) (bs : List Byte) : (s.setRegs bs).v = Vector.ofFn fun k => bs.getD k.val (s.v.get k) := rfl
@[simp] theorem State.setRegs_i (s : State) (bs : List Byte) : (s.setRegs bs).i = s.i := rfl
@[simp] theorem State.setRegs_pc (s : State) (bs : List Byte) : (s.setRegs bs).pc = s.pc := rfl
@[simp] theorem State.setRegs_sp (s : State) (bs : List Byte) : (s.setRegs bs).sp = s.sp := rfl
@[simp] theorem State.setRegs_stack (s : State) (bs : List Byte) : (s.setRegs bs).stack = s.stack := rfl
@[simp] theorem State.setRegs_dt (s : State) (bs : List Byte) : (s.setRegs bs).dt = s.dt := rfl
@[simp] theorem State.setRegs_st (s : State) (bs : List Byte) : (s.setRegs bs).st = s.st := rfl
@[simp] theorem State.setRegs_mem (s : State) (bs : List Byte) : (s.setRegs bs).mem = s.mem := rfl
@[simp] theorem State.setRegs_fb (s : State) (bs : List Byte) : (s.setRegs bs).fb = s.fb := rfl
@[simp] theorem State.setRegs_halted (s : State) (bs : List Byte) : (s.setRegs bs).halted = s.halted := rfl
@[simp] theorem State.setRegs_fault (s : State) (bs : List Byte) : (s.setRegs bs).fault = s.fault := rfl
@[simp] theorem State.setRegs_inputs (s : State) (bs : List Byte) : (s.setRegs bs).inputs = s.inputs := rfl
@[simp] theorem State.setRegs_drawn (s : State) (bs : List Byte) : (s.setRegs bs).drawn = s.drawn := rfl

/-! `State.setI` -/
@[simp] theorem State.setI_v (s : State) (w : Word) : (s.setI w).v = s.v := rfl
@[simp] theorem State.setI_i (s : State) (w : Word) : (s.setI w).i = w := rfl
@[simp] theorem State.setI_pc (s : State) (w : Word) : (s.setI w).pc = s.pc := rfl
@[simp] theorem State.setI_sp (s : State) (w : Word) : (s.setI w).sp = s.sp := rfl
@[simp] theorem State.setI_stack (s : State) (w : Word) : (s.setI w).stack = s.stack := rfl
@[simp] theorem State.setI_dt (s : State) (w : Word) : (s.setI w).dt = s.dt := rfl
@[simp] theorem State.setI_st (s : State) (w : Word) : (s.setI w).st = s.st := rfl
@[simp] theorem State.setI_mem (s : State) (w : Word) : (s.setI w).mem = s.mem := rfl
@[simp] theorem State.setI_fb (s : State) (w : Word) : (s.setI w).fb = s.fb := rfl
@[simp] theorem State.setI_halted (s : State) (w : Word) : (s.setI w).halted = s.halted := rfl
@[simp] theorem State.setI_fault (s : State) (w : Word) : (s.setI w).fault = s.fault := rfl
@[simp] theorem State.setI_inputs (s : State) (w : Word) : (s.setI w).inputs = s.inputs := rfl
@[simp] theorem State.setI_drawn (s : State) (w : Word) : (s.setI w).drawn = s.drawn := rfl

/-! `State.setPc` -/
@[simp] theorem State.setPc_v (s : State) (w : Word) : (s.setPc w).v = s.v := rfl
@[simp] theorem State.setPc_i (s : State) (w : Word) : (s.setPc w).i = s.i := rfl
@[simp] theorem State.setPc_pc (s : State) (w : Word) : (s.setPc w).pc = w := rfl
@[simp] theorem State.setPc_sp (s : State) (w : Word) : (s.setPc w).sp = s.sp := rfl
@[simp] theorem State.setPc_stack (s : State) (w : Word) : (s.setPc w).stack = s.stack := rfl
@[simp] theorem State.setPc_dt (s : State) (w : Word) : (s.setPc w).dt = s.dt := rfl
@[simp] theorem State.setPc_st (s : State) (w : Word) : (s.setPc w).st = s.st := rfl
@[simp] theorem State.setPc_mem (s : State) (w : Word) : (s.setPc w).mem = s.mem := rfl
@[simp] theorem State.setPc_fb (s : State) (w : Word) : (s.setPc w).fb = s.fb := rfl
@[simp] theorem State.setPc_halted (s : State) (w : Word) : (s.setPc w).halted = s.halted := rfl
@[simp] theorem State.setPc_fault (s : State) (w : Word) : (s.setPc w).fault = s.fault := rfl
@[simp] theorem State.setPc_inputs (s : State) (w : Word) : (s.setPc w).inputs = s.inputs := rfl
@[simp] theorem State.setPc_drawn (s : State) (w : Word) : (s.setPc w).drawn = s.drawn := rfl

/-! `State.setDt` -/
@[simp] theorem State.setDt_v (s : State) (b : Byte) : (s.setDt b).v = s.v := rfl
@[simp] theorem State.setDt_i (s : State) (b : Byte) : (s.setDt b).i = s.i := rfl
@[simp] theorem State.setDt_pc (s : State) (b : Byte) : (s.setDt b).pc = s.pc := rfl
@[simp] theorem State.setDt_sp (s : State) (b : Byte) : (s.setDt b).sp = s.sp := rfl
@[simp] theorem State.setDt_stack (s : State) (b : Byte) : (s.setDt b).stack = s.stack := rfl
@[simp] theorem State.setDt_dt (s : State) (b : Byte) : (s.setDt b).dt = b := rfl
@[simp] theorem State.setDt_st (s : State) (b : Byte) : (s.setDt b).st = s.st := rfl
@[simp] theorem State.setDt_mem (s : State) (b : Byte) : (s.setDt b).mem = s.mem := rfl
@[simp] theorem State.setDt_fb (s : State) (b : Byte) : (s.setDt b).fb = s.fb := rfl
@[simp] theorem State.setDt_halted (s : State) (b : Byte) : (s.setDt b).halted = s.halted := rfl
@[simp] theorem State.setDt_fault (s : State) (b : Byte) : (s.setDt b).fault = s.fault := rfl
@[simp] theorem State.setDt_inputs (s : State) (b : Byte) : (s.setDt b).inputs = s.inputs := rfl
@[simp] theorem State.setDt_drawn (s : State) (b : Byte) : (s.setDt b).drawn = s.drawn := rfl

/-! `State.setSt` -/
@[simp] theorem State.setSt_v (s : State) (b : Byte) : (s.setSt b).v = s.v := rfl
@[simp] theorem State.setSt_i (s : State) (b : Byte) : (s.setSt b).i = s.i := rfl
@[simp] theorem State.setSt_pc (s : State) (b : Byte) : (s.setSt b).pc = s.pc := rfl
@[simp] theorem State.setSt_sp (s : State) (b : Byte) : (s.setSt b).sp = s.sp := rfl
@[simp] theorem State.setSt_stack (s : State) (b : Byte) : (s.setSt b).stack = s.stack := rfl
@[simp] theorem State.setSt_dt (s : State) (b : Byte) : (s.setSt b).dt = s.dt := rfl
@[simp] theorem State.setSt_st (s : State) (b : Byte) : (s.setSt b).st = b := rfl
@[simp] theorem State.setSt_mem (s : State) (b : Byte) : (s.setSt b).mem = s.mem := rfl
@[simp] theorem State.setSt_fb (s : State) (b : Byte) : (s.setSt b).fb = s.fb := rfl
@[simp] theorem State.setSt_halted (s : State) (b : Byte) : (s.setSt b).halted = s.halted := rfl
@[simp] theorem State.setSt_fault (s : State) (b : Byte) : (s.setSt b).fault = s.fault := rfl
@[simp] theorem State.setSt_inputs (s : State) (b : Byte) : (s.setSt b).inputs = s.inputs := rfl
@[simp] theorem State.setSt_drawn (s : State) (b : Byte) : (s.setSt b).drawn = s.drawn := rfl

/-! `State.setFlag` -/
@[simp] theorem State.setFlag_i (s : State) (c : Bool) : (s.setFlag c).i = s.i := rfl
@[simp] theorem State.setFlag_pc (s : State) (c : Bool) : (s.setFlag c).pc = s.pc := rfl
@[simp] theorem State.setFlag_sp (s : State) (c : Bool) : (s.setFlag c).sp = s.sp := rfl
@[simp] theorem State.setFlag_stack (s : State) (c : Bool) : (s.setFlag c).stack = s.stack := rfl
@[simp] theorem State.setFlag_dt (s : State) (c : Bool) : (s.setFlag c).dt = s.dt := rfl
@[simp] theorem State.setFlag_st (s : State) (c : Bool) : (s.setFlag c).st = s.st := rfl
@[simp] theorem State.setFlag_mem (s : State) (c : Bool) : (s.setFlag c).mem = s.mem := rfl
@[simp] theorem State.setFlag_fb (s : State) (c : Bool) : (s.setFlag c).fb = s.fb := rfl
@[simp] theorem State.setFlag_halted (s : State) (c : Bool) : (s.setFlag c).halted = s.halted := rfl
@[simp] theorem State.setFlag_fault (s : State) (c : Bool) : (s.setFlag c).fault = s.fault := rfl
@[simp] theorem State.setFlag_inputs (s : State) (c : Bool) : (s.setFlag c).inputs = s.inputs := rfl
@[simp] theorem State.setFlag_drawn (s : State) (c : Bool) : (s.setFlag c).drawn = s.drawn := rfl

/-! `State.writeFlagged` -/
@[simp] theorem State.writeFlagged_i (s : State) (x : Nibble) (c : Bool) (b : Byte) : (s.writeFlagged x c b).i = s.i := rfl
@[simp] theorem State.writeFlagged_pc (s : State) (x : Nibble) (c : Bool) (b : Byte) : (s.writeFlagged x c b).pc = s.pc := rfl
@[simp] theorem State.writeFlagged_sp (s : State) (x : Nibble) (c : Bool) (b : Byte) : (s.writeFlagged x c b).sp = s.sp := rfl
@[simp] theorem State.writeFlagged_stack (s : State) (x : Nibble) (c : Bool) (b : Byte) : (s.writeFlagged x c b).stack = s.stack := rfl
@[simp] theorem State.writeFlagged_dt (s : State) (x : Nibble) (c : Bool) (b : Byte) : (s.writeFlagged x c b).dt = s.dt := rfl
@[simp] theorem State.writeFlagged_st (s : State) (x : Nibble) (c : Bool) (b : Byte) : (s.writeFlagged x c b).st = s.st := rfl
@[simp] theorem State.writeFlagged_mem (s : State) (x : Nibble) (c : Bool) (b : Byte) : (s.writeFlagged x c b).mem = s.mem := rfl
@[simp] theorem State.writeFlagged_fb (s : State) (x : Nibble) (c : Bool) (b : Byte) : (s.writeFlagged x c b).fb = s.fb := rfl
@[simp] theorem State.writeFlagged_halted (s : State) (x : Nibble) (c : Bool) (b : Byte) : (s.writeFlagged x c b).halted = s.halted := rfl
@[simp] theorem State.writeFlagged_fault (s : State) (x : Nibble) (c : Bool) (b : Byte) : (s.writeFlagged x c b).fault = s.fault := rfl
@[simp] theorem State.writeFlagged_inputs (s : State) (x : Nibble) (c : Bool) (b : Byte) : (s.writeFlagged x c b).inputs = s.inputs := rfl
@[simp] theorem State.writeFlagged_drawn (s : State) (x : Nibble) (c : Bool) (b : Byte) : (s.writeFlagged x c b).drawn = s.drawn := rfl

/-! `State.drawSprite` -/
@[simp] theorem State.drawSprite_i (s : State) (bx top : Byte) (bs : List Byte) : (s.drawSprite bx top bs).i = s.i := rfl
@[simp] theorem State.drawSprite_pc (s : State) (bx top : Byte) (bs : List Byte) : (s.drawSprite bx top bs).pc = s.pc := rfl
@[simp] theorem State.drawSprite_sp (s : State) (bx top : Byte) (bs : List Byte) : (s.drawSprite bx top bs).sp = s.sp := rfl
@[simp] theorem State.drawSprite_stack (s : State) (bx top : Byte) (bs : List Byte) : (s.drawSprite bx top bs).stack = s.stack := rfl
@[simp] theorem State.drawSprite_dt (s : State) (bx top : Byte) (bs : List Byte) : (s.drawSprite bx top bs).dt = s.dt := rfl
@[simp] theorem State.drawSprite_st (s : State) (bx top : Byte) (bs : List Byte) : (s.drawSprite bx top bs).st = s.st := rfl
@[simp] theorem State.drawSprite_mem (s : State) (bx top : Byte) (bs : List Byte) : (s.drawSprite bx top bs).mem = s.mem := rfl
@[simp] theorem State.drawSprite_fb (s : State) (bx top : Byte) (bs : List Byte) : (s.drawSprite bx top bs).fb = (drawRows bx top 0 bs (s.fb, false)).1 := rfl
@[simp] theorem State.drawSprite_halted (s : State) (bx top : Byte) (bs : List Byte) : (s.drawSprite bx top bs).halted = s.halted := rfl
@[simp] theorem State.drawSprite_fault (s : State) (bx top : Byte) (bs : List Byte) : (s.drawSprite bx top bs).fault = s.fault := rfl
@[simp] theorem State.drawSprite_inputs (s : State) (bx top : Byte) (bs : List Byte) : (s.drawSprite bx top bs).inputs = s.inputs := rfl
@[simp] theorem State.drawSprite_drawn (s : State) (bx top : Byte) (bs : List Byte) : (s.drawSprite bx top bs).drawn = s.drawn := rfl

/-! `State.keyWait` -/
@[simp] theorem State.keyWait_i (s : State) (x : Nibble) (k : Option Nat) : (s.keyWait x k).i = s.i := rfl
@[simp] theorem State.keyWait_sp (s : State) (x : Nibble) (k : Option Nat) : (s.keyWait x k).sp = s.sp := rfl
@[simp] theorem State.keyWait_stack (s : State) (x : Nibble) (k : Option Nat) : (s.keyWait x k).stack = s.stack := rfl
@[simp] theorem State.keyWait_dt (s : State) (x : Nibble) (k : Option Nat) : (s.keyWait x k).dt = s.dt := rfl
@[simp] theorem State.keyWait_st (s : State) (x : Nibble) (k : Option Nat) : (s.keyWait x k).st = s.st := rfl
@[simp] theorem State.keyWait_mem (s : State) (x : Nibble) (k : Option Nat) : (s.keyWait x k).mem = s.mem := rfl
@[simp] theorem State.keyWait_fb (s : State) (x : Nibble) (k : Option Nat) : (s.keyWait x k).fb = s.fb := rfl
@[simp] theorem State.keyWait_halted (s : State) (x : Nibble) (k : Option Nat) : (s.keyWait x k).halted = s.halted := rfl
@[simp] theorem State.keyWait_fault (s : State) (x : Nibble) (k : Option Nat) : (s.keyWait x k).fault = s.fault := rfl
@[simp] theorem State.keyWait_inputs (s : State) (x : Nibble) (k : Option Nat) : (s.keyWait x k).inputs = s.inputs := rfl
@[simp] theorem State.keyWait_drawn (s : State) (x : Nibble) (k : Option Nat) : (s.keyWait x k).drawn = s.drawn := rfl

/-! `State.takeFault` -/
@[simp] theorem State.takeFault_v (s : State) (k : Fault) (o : Option Word) : (s.takeFault k o).v = s.v := rfl
@[simp] theorem State.takeFault_i (s : State) (k : Fault) (o : Option Word) : (s.takeFault k o).i = s.i := rfl
@[simp] theorem State.takeFault_pc (s : State) (k : Fault) (o : Option Word) : (s.takeFault k o).pc = s.pc := rfl
@[simp] theorem State.takeFault_sp (s : State) (k : Fault) (o : Option Word) : (s.takeFault k o).sp = s.sp := rfl
@[simp] theorem State.takeFault_stack (s : State) (k : Fault) (o : Option Word) : (s.takeFault k o).stack = s.stack := rfl
@[simp] theorem State.takeFault_dt (s : State) (k : Fault) (o : Option Word) : (s.takeFault k o).dt = s.dt := rfl
@[simp] theorem State.takeFault_st (s : State) (k : Fault) (o : Option Word) : (s.takeFault k o).st = s.st := rfl
@[simp] theorem State.takeFault_mem (s : State) (k : Fault) (o : Option Word) : (s.takeFault k o).mem = s.mem := rfl
@[simp] theorem State.takeFault_fb (s : State) (k : Fault) (o : Option Word) : (s.takeFault k o).fb = s.fb := rfl
@[simp] theorem State.takeFault_halted (s : State) (k : Fault) (o : Option Word) : (s.takeFault k o).halted = true := rfl
@[simp] theorem State.takeFault_fault (s : State) (k : Fault) (o : Option Word) : (s.takeFault k o).fault = some ⟨k, s.pc, o⟩ := rfl
@[simp] theorem State.takeFault_inputs (s : State) (k : Fault) (o : Option Word) : (s.takeFault k o).inputs = s.inputs := rfl
@[simp] theorem State.takeFault_drawn (s : State) (k : Fault) (o : Option Word) : (s.takeFault k o).drawn = s.drawn := rfl

/-! `State.tickTimers` -/
@[simp] theorem State.tickTimers_v (s : State) : s.tickTimers.v = s.v := rfl
@[simp] theorem State.tickTimers_i (s : State) : s.tickTimers.i = s.i := rfl
@[simp] theorem State.tickTimers_pc (s : State) : s.tickTimers.pc = s.pc := rfl
@[simp] theorem State.tickTimers_sp (s : State) : s.tickTimers.sp = s.sp := rfl
@[simp] theorem State.tickTimers_stack (s : State) : s.tickTimers.stack = s.stack := rfl
@[simp] theorem State.tickTimers_dt (s : State) : s.tickTimers.dt = countDown s.input.tick s.dt := rfl
@[simp] theorem State.tickTimers_st (s : State) : s.tickTimers.st = countDown s.input.tick s.st := rfl
@[simp] theorem State.tickTimers_mem (s : State) : s.tickTimers.mem = s.mem := rfl
@[simp] theorem State.tickTimers_fb (s : State) : s.tickTimers.fb = s.fb := rfl
@[simp] theorem State.tickTimers_halted (s : State) : s.tickTimers.halted = s.halted := rfl
@[simp] theorem State.tickTimers_fault (s : State) : s.tickTimers.fault = s.fault := rfl
@[simp] theorem State.tickTimers_inputs (s : State) : s.tickTimers.inputs = s.inputs := rfl
@[simp] theorem State.tickTimers_drawn (s : State) : s.tickTimers.drawn = s.drawn := rfl

/-! `State.takeInput` -/
@[simp] theorem State.takeInput_v (s : State) : s.takeInput.v = s.v := rfl
@[simp] theorem State.takeInput_i (s : State) : s.takeInput.i = s.i := rfl
@[simp] theorem State.takeInput_pc (s : State) : s.takeInput.pc = s.pc := rfl
@[simp] theorem State.takeInput_sp (s : State) : s.takeInput.sp = s.sp := rfl
@[simp] theorem State.takeInput_stack (s : State) : s.takeInput.stack = s.stack := rfl
@[simp] theorem State.takeInput_dt (s : State) : s.takeInput.dt = s.dt := rfl
@[simp] theorem State.takeInput_st (s : State) : s.takeInput.st = s.st := rfl
@[simp] theorem State.takeInput_mem (s : State) : s.takeInput.mem = s.mem := rfl
@[simp] theorem State.takeInput_fb (s : State) : s.takeInput.fb = s.fb := rfl
@[simp] theorem State.takeInput_halted (s : State) : s.takeInput.halted = s.halted := rfl
@[simp] theorem State.takeInput_fault (s : State) : s.takeInput.fault = s.fault := rfl
@[simp] theorem State.takeInput_inputs (s : State) : s.takeInput.inputs = s.inputs.tail := rfl
@[simp] theorem State.takeInput_drawn (s : State) : s.takeInput.drawn = s.drawn + 1 := rfl

/-! `State.skipIf` -/
@[simp] theorem State.skipIf_v (c : Bool) (s : State) : (s.skipIf c).v = s.v := rfl
@[simp] theorem State.skipIf_i (c : Bool) (s : State) : (s.skipIf c).i = s.i := rfl
@[simp] theorem State.skipIf_pc (c : Bool) (s : State) : (s.skipIf c).pc = if c then s.pc + 2 else s.pc := rfl
@[simp] theorem State.skipIf_sp (c : Bool) (s : State) : (s.skipIf c).sp = s.sp := rfl
@[simp] theorem State.skipIf_stack (c : Bool) (s : State) : (s.skipIf c).stack = s.stack := rfl
@[simp] theorem State.skipIf_dt (c : Bool) (s : State) : (s.skipIf c).dt = s.dt := rfl
@[simp] theorem State.skipIf_st (c : Bool) (s : State) : (s.skipIf c).st = s.st := rfl
@[simp] theorem State.skipIf_mem (c : Bool) (s : State) : (s.skipIf c).mem = s.mem := rfl
@[simp] theorem State.skipIf_fb (c : Bool) (s : State) : (s.skipIf c).fb = s.fb := rfl
@[simp] theorem State.skipIf_halted (c : Bool) (s : State) : (s.skipIf c).halted = s.halted := rfl
@[simp] theorem State.skipIf_fault (c : Bool) (s : State) : (s.skipIf c).fault = s.fault := rfl
@[simp] theorem State.skipIf_inputs (c : Bool) (s : State) : (s.skipIf c).inputs = s.inputs := rfl
@[simp] theorem State.skipIf_drawn (c : Bool) (s : State) : (s.skipIf c).drawn = s.drawn := rfl

end Sys2Proof.Machine
end

