-- ==== Sys2Proof/Laws/Memory.lean ====
section
/-! SUPPORT. The laws of memory: read after write, the canonical form, what the range operations do (R54 to R57). -/

namespace Sys2Proof.Machine

theorem Memory.read_cons (m : Memory) (a c : Nat) (b : Byte) :
    Memory.read (Memory.cons a b m) c = if c = a then (if b = resetByte a then Memory.read m a else b) else Memory.read m c := by
  unfold Memory.cons
  split <;> rename_i hb
  · split
    · subst c; rfl
    · rfl
  · rfl

/-- Below every listed address memory reads as after reset. -/
theorem Memory.read_below {lo a : Nat} (m : Memory) (h : Memory.wfFrom lo m = true) (ha : a < lo) :
    Memory.read m a = resetByte a := by
  induction m generalizing lo with
  | nil => rfl
  | cons c m ih =>
    obtain ⟨c, d⟩ := c
    simp only [Memory.wfFrom, Bool.and_eq_true, decide_eq_true_eq] at h
    have hne : a ≠ c := by omega
    simp only [Memory.read, if_neg hne]
    exact ih h.2 (by omega)

theorem Memory.wfFrom_mono {lo lo' : Nat} (m : Memory) (h : Memory.wfFrom lo m = true) (hle : lo' ≤ lo) :
    Memory.wfFrom lo' m = true := by
  cases m with
  | nil => rfl
  | cons c m =>
    simp only [Memory.wfFrom, Bool.and_eq_true, decide_eq_true_eq] at h ⊢
    exact ⟨⟨⟨by omega, h.1.1.2⟩, h.1.2⟩, h.2⟩

theorem Memory.wfFrom_cons {a : Nat} (b : Byte) (m : Memory) (h : Memory.wfFrom (a + 1) m = true) (ha : a < config.memSize) :
    Memory.wfFrom a (Memory.cons a b m) = true := by
  unfold Memory.cons
  split <;> rename_i hb
  · exact Memory.wfFrom_mono m h (by omega)
  · simp only [Memory.wfFrom, Bool.and_eq_true, decide_eq_true_eq]
    exact ⟨⟨⟨Nat.le_refl a, ha⟩, by simpa using hb⟩, h⟩

theorem Memory.wfFrom_write {lo a : Nat} (m : Memory) (b : Byte) (h : Memory.wfFrom lo m = true) (hlo : lo ≤ a)
    (ha : a < config.memSize) : Memory.wfFrom lo (Memory.write m a b) = true := by
  induction m generalizing lo with
  | nil => exact Memory.wfFrom_mono _ (Memory.wfFrom_cons b [] rfl ha) hlo
  | cons c m ih =>
    obtain ⟨c, d⟩ := c
    have h' := h
    simp only [Memory.wfFrom, Bool.and_eq_true, decide_eq_true_eq] at h
    simp only [Memory.write]
    split
    · refine Memory.wfFrom_mono _ (Memory.wfFrom_cons b _ ?_ ha) hlo
      simp only [Memory.wfFrom, Bool.and_eq_true, decide_eq_true_eq]
      exact ⟨⟨⟨by omega, h.1.1.2⟩, h.1.2⟩, h.2⟩
    · split
      · subst a
        exact Memory.wfFrom_mono _ (Memory.wfFrom_cons b m h.2 ha) hlo
      · simp only [Memory.wfFrom, Bool.and_eq_true, decide_eq_true_eq]
        exact ⟨h.1, ih h.2 (by omega)⟩

/-- A write keeps the canonical form. -/
theorem Memory.wf_write {m : Memory} {a : Nat} (b : Byte) (h : Memory.wf m = true) (ha : a < config.memSize) :
    Memory.wf (Memory.write m a b) = true := Memory.wfFrom_write m b h (Nat.zero_le a) ha

/-- A range store keeps the canonical form. -/
theorem Memory.wf_writeBytes {m : Memory} {a : Nat} (bs : List Byte) (h : Memory.wf m = true)
    (ha : a + bs.length ≤ config.memSize) : Memory.wf (Memory.writeBytes m a bs) = true := by
  induction bs generalizing m a with
  | nil => exact h
  | cons b bs ih =>
    simp only [List.length_cons] at ha
    exact ih (Memory.wf_write b h (by omega)) (by omega)

theorem Memory.wf_nil : Memory.wf [] = true := rfl

/-- A read after a write in memory of canonical form: the written address gives the value, every other its old byte (R56, R61). -/
theorem Memory.read_writeFrom {lo : Nat} (m : Memory) (a c : Nat) (b : Byte) (h : Memory.wfFrom lo m = true) :
    Memory.read (Memory.write m a b) c = if c = a then b else Memory.read m c := by
  induction m generalizing lo with
  | nil =>
    rw [Memory.write, Memory.read_cons]
    split
    · split <;> simp_all [Memory.read]
    · rfl
  | cons e m ih =>
    obtain ⟨e, d⟩ := e
    have hbelow : ∀ a, a < e → Memory.read ((e, d) :: m) a = resetByte a := fun a hlt =>
      Memory.read_below (lo := e) ((e, d) :: m)
        (by simp only [Memory.wfFrom, Bool.and_eq_true, decide_eq_true_eq] at h ⊢
            exact ⟨⟨⟨Nat.le_refl _, h.1.1.2⟩, h.1.2⟩, h.2⟩) hlt
    simp only [Memory.wfFrom, Bool.and_eq_true, decide_eq_true_eq] at h
    simp only [Memory.write]
    split
    · rename_i hlt
      rw [Memory.read_cons, hbelow a hlt]
      split
      · split <;> simp_all
      · rfl
    · split
      · subst a
        rw [Memory.read_cons, Memory.read_below m h.2 (Nat.lt_succ_self e)]
        split
        · split <;> simp_all
        · rename_i hne
          simp [Memory.read, hne]
      · rename_i hne
        simp only [Memory.read]
        split
        · rename_i hce
          subst c
          rw [if_neg (Ne.symm hne)]
        · exact ih h.2

theorem Memory.read_write {m : Memory} (a c : Nat) (b : Byte) (h : Memory.wf m = true) :
    Memory.read (Memory.write m a b) c = if c = a then b else Memory.read m c := Memory.read_writeFrom m a c b h

/-- Reads that agree everywhere make canonical memories equal: equal memories are equal data. -/
theorem Memory.extFrom {lo : Nat} (m m' : Memory) (h : Memory.wfFrom lo m = true) (h' : Memory.wfFrom lo m' = true)
    (heq : ∀ a, Memory.read m a = Memory.read m' a) : m = m' := by
  induction m generalizing lo m' with
  | nil =>
    cases m' with
    | nil => rfl
    | cons c m' =>
      obtain ⟨c, d⟩ := c
      simp only [Memory.wfFrom, Bool.and_eq_true, decide_eq_true_eq] at h'
      have := heq c
      simp only [Memory.read, if_true] at this
      simp [this] at h'
  | cons c m ih =>
    obtain ⟨c, d⟩ := c
    have hm := h
    simp only [Memory.wfFrom, Bool.and_eq_true, decide_eq_true_eq, bne_iff_ne] at h
    cases m' with
    | nil =>
      have := heq c
      simp only [Memory.read, if_true] at this
      exact absurd this h.1.2
    | cons e m' =>
      obtain ⟨e, f⟩ := e
      simp only [Memory.wfFrom, Bool.and_eq_true, decide_eq_true_eq, bne_iff_ne] at h'
      have hce : c = e := by
        rcases Nat.lt_trichotomy c e with hlt | heq' | hgt
        · have hr := heq c
          simp only [Memory.read, if_true, if_neg (Nat.ne_of_lt hlt)] at hr
          rw [Memory.read_below m' h'.2 (by omega)] at hr
          exact absurd hr h.1.2
        · exact heq'
        · have hr := heq e
          simp only [Memory.read, if_true, if_neg (Nat.ne_of_lt hgt)] at hr
          rw [Memory.read_below m h.2 (by omega)] at hr
          exact absurd hr.symm h'.1.2
      subst e
      have hd : d = f := by simpa [Memory.read] using heq c
      subst f
      congr 1
      refine ih m' h.2 h'.2 fun a => ?_
      by_cases hac : a = c
      · subst a
        rw [Memory.read_below m h.2 (Nat.lt_succ_self c), Memory.read_below m' h'.2 (Nat.lt_succ_self c)]
      · simpa [Memory.read, hac] using heq a

/-- What a range store leaves at every address (R54, R56). -/
theorem Memory.read_writeBytes {m : Memory} (a c : Nat) (bs : List Byte) (h : Memory.wf m = true)
    (ha : a + bs.length ≤ config.memSize) :
    Memory.read (Memory.writeBytes m a bs) c = if a ≤ c ∧ c < a + bs.length then bs.getD (c - a) 0 else Memory.read m c := by
  induction bs generalizing m a with
  | nil => simp [Memory.writeBytes, show ¬(a ≤ c ∧ c < a) by omega]
  | cons b bs ih =>
    simp only [List.length_cons] at ha
    rw [Memory.writeBytes, ih (a + 1) (Memory.wf_write b h (by omega)) (by omega), Memory.read_write a c b h]
    simp only [List.length_cons]
    by_cases h1 : c = a
    · subst c
      rw [if_neg (by omega), if_pos rfl, if_pos (by omega)]
      simp
    · by_cases h2 : a + 1 ≤ c ∧ c < a + 1 + bs.length
      · rw [if_pos h2, if_pos (by omega)]
        obtain ⟨k, hk⟩ : ∃ k, c - a = k + 1 := ⟨c - a - 1, by omega⟩
        rw [hk, show c - (a + 1) = k by omega]
        simp
      · rw [if_neg h2, if_neg h1, if_neg (by omega)]

@[simp] theorem Memory.length_readBytes (m : Memory) (a n : Nat) : (Memory.readBytes m a n).length = n := by
  induction n generalizing a with
  | zero => rfl
  | succ n ih => simp [Memory.readBytes, ih]

/-- The bytes of a range read. -/
theorem Memory.getD_readBytes (m : Memory) (a n k : Nat) (d : Byte) :
    (Memory.readBytes m a n).getD k d = if k < n then Memory.read m (a + k) else d := by
  induction n generalizing a k with
  | zero => simp [Memory.readBytes]
  | succ n ih =>
    cases k with
    | zero => simp [Memory.readBytes]
    | succ k =>
      have := ih (a + 1) k
      simp only [Memory.readBytes, List.getD_cons_succ, this, Nat.add_lt_add_iff_right]
      rw [show a + 1 + k = a + (k + 1) by omega]

theorem inRange_iff (a len : Nat) : inRange a len = true ↔ len = 0 ∨ a + len ≤ config.memSize := by
  simp only [inRange, Bool.or_eq_true, beq_iff_eq, decide_eq_true_eq]
  omega

/-- Everything `State.loadBytes` can do (R55, R57). -/
theorem State.loadBytes_cases (s : State) (a len : Nat) :
    (inRange a len = true ∧ s.loadBytes a len = some (Memory.readBytes s.mem a len)) ∨
    (inRange a len = false ∧ s.loadBytes a len = none) := by
  unfold State.loadBytes
  cases inRange a len <;> simp

/-- Everything `State.storeBytes` can do (R56, R57). -/
theorem State.storeBytes_cases (s : State) (a : Nat) (bs : List Byte) :
    (inRange a bs.length = true ∧ s.storeBytes a bs = some { s with mem := Memory.writeBytes s.mem a bs }) ∨
    (inRange a bs.length = false ∧ s.storeBytes a bs = none) := by
  unfold State.storeBytes
  cases inRange a bs.length <;> simp

/-- `Memory.writeBytes` within range keeps the canonical form. -/
theorem Memory.wf_writeBytes_inRange {m : Memory} {a : Nat} (bs : List Byte) (h : Memory.wf m = true)
    (ha : inRange a bs.length = true) : Memory.wf (Memory.writeBytes m a bs) = true := by
  rcases (inRange_iff a bs.length).mp ha with h0 | hle
  · rw [List.length_eq_zero_iff.mp h0]
    exact h
  · exact Memory.wf_writeBytes bs h hle

end Sys2Proof.Machine
end

