-- ==== Sys2Proof/Laws/Ops.lean ====
section
/-! SUPPORT. What each shared operation over registers, stack, pixels, inputs, operands and flags does. -/

namespace Sys2Proof.Machine

/-! ## Registers -/

/-- A register write changes that register only (R20). -/
@[simp] theorem State.reg_setReg (s : State) (x r : Nibble) (b : Byte) :
    (s.setReg x b).reg r = if r = x then b else s.reg r := by
  simp only [State.reg, State.setReg, Vector.getElem_set, BitVec.toNat_inj]
  by_cases h : x = r
  · simp [h]
  · simp [h, Ne.symm h]

theorem State.reg_eq_get (s : State) (r : Nibble) : s.reg r = s.v.get ⟨r.toNat, r.isLt⟩ := rfl

/-- A group write reaches the registers the list reaches (R145). -/
theorem State.reg_setRegs (s : State) (bs : List Byte) (r : Nibble) :
    (s.setRegs bs).reg r = bs.getD r.toNat (s.reg r) := by
  simp only [State.reg, State.setRegs, Vector.getElem_ofFn]
  rfl

@[simp] theorem State.length_regsUpTo (s : State) (x : Nibble) : (s.regsUpTo x).length = x.toNat + 1 := by
  have := x.isLt
  simp only [State.regsUpTo, List.length_take, Vector.length_toList]
  omega

/-- The `k`-th byte of `V[0]`..`V[x]` is register `k` (R144). -/
theorem State.getD_regsUpTo (s : State) (x r : Nibble) (d : Byte) (h : r.toNat ≤ x.toNat) :
    (s.regsUpTo x).getD r.toNat d = s.reg r := by
  have hr := r.isLt
  rw [List.getD_eq_getElem _ _ (by rw [State.length_regsUpTo]; omega)]
  simp [State.regsUpTo, State.reg]

@[simp] theorem State.reg_advance (s : State) (r : Nibble) : s.advance.reg r = s.reg r := rfl
@[simp] theorem State.reg_setI (s : State) (w : Word) (r : Nibble) : (s.setI w).reg r = s.reg r := rfl
@[simp] theorem State.reg_setPc (s : State) (w : Word) (r : Nibble) : (s.setPc w).reg r = s.reg r := rfl
@[simp] theorem State.reg_skipIf (c : Bool) (s : State) (r : Nibble) : (s.skipIf c).reg r = s.reg r := rfl
@[simp] theorem State.reg_setDt (s : State) (b : Byte) (r : Nibble) : (s.setDt b).reg r = s.reg r := rfl
@[simp] theorem State.reg_setSt (s : State) (b : Byte) (r : Nibble) : (s.setSt b).reg r = s.reg r := rfl
@[simp] theorem State.reg_tickTimers (s : State) (r : Nibble) : s.tickTimers.reg r = s.reg r := rfl
@[simp] theorem State.reg_takeInput (s : State) (r : Nibble) : s.takeInput.reg r = s.reg r := rfl
@[simp] theorem State.reg_takeFault (s : State) (k : Fault) (o : Option Word) (r : Nibble) :
    (s.takeFault k o).reg r = s.reg r := rfl

/-- The flag is written to register 15 only, as 0 or 1 (R22, R23). -/
@[simp] theorem State.reg_setFlag (s : State) (c : Bool) (r : Nibble) :
    (s.setFlag c).reg r = if r = 15#4 then flagByte c else s.reg r := by
  rw [State.setFlag, flagReg_eq, State.reg_setReg]

/-- The result is written last, so it replaces the flag when `x = 15` (R121). -/
@[simp] theorem State.reg_writeFlagged (s : State) (x r : Nibble) (c : Bool) (b : Byte) :
    (s.writeFlagged x c b).reg r = if r = x then b else if r = 15#4 then flagByte c else s.reg r := by
  rw [State.writeFlagged, State.reg_setReg, State.reg_setFlag]

/-! ## The return stack -/

/-- Everything `State.push` can do (R29, R102). -/
theorem State.push_cases (s : State) (w : Word) :
    (∃ h : s.sp.val < 16, s.push w =
      some { s with sp := ⟨s.sp.val + 1, by omega⟩, stack := s.stack.set s.sp.val w h }) ∨
    (s.sp.val = 16 ∧ s.push w = none) := by
  have := s.sp.isLt
  by_cases h : s.sp.val < 16
  · exact .inl ⟨h, by simp [State.push, h]⟩
  · exact .inr ⟨by omega, by simp [State.push, h]⟩

/-- Everything `State.pop` can do (R29, R103). -/
theorem State.pop_cases (s : State) :
    (0 < s.sp.val ∧ ∃ hlt : s.sp.val - 1 < 17, s.pop = some (s.slot s.sp.val, { s with sp := ⟨s.sp.val - 1, hlt⟩ })) ∨
    (s.sp.val = 0 ∧ s.pop = none) := by
  have hlt := s.sp.isLt
  by_cases h : 0 < s.sp.val
  · refine .inl ⟨h, by omega, ?_⟩
    have hs : s.stack[s.sp.val - 1]'(by omega) = s.slot s.sp.val := by
      rw [State.slot, if_neg (by omega), List.getD_eq_getElem _ _ (by rw [Vector.length_toList]; omega), Vector.getElem_toList]
    simp [State.pop, h, hs]
  · exact .inr ⟨by omega, by simp [State.pop, h]⟩

/-- A push writes the slot of the new depth and no other (R28, R102). -/
theorem State.slot_set (s : State) (n k : Nat) (w : Word) (h : n < 16) (t : State) (ht : t.stack = s.stack.set n w h) :
    t.slot k = if k = n + 1 then w else s.slot k := by
  simp only [State.slot, ht, Vector.toList_set, List.getD_eq_getElem?_getD, List.getElem?_set, Vector.length_toList]
  rcases k with _ | k
  · simp
  · by_cases hk : n = k
    · subst hk; simp [h]
    · simp [hk, Ne.symm hk]

/-! ## Pixels -/

/-- A pixel write changes that pixel only (R11, R34). -/
@[simp] theorem Frame.pixel_setPixel (f : Frame) (cx cx' : Fin 64) (cy cy' : Fin 32) (b : Bool) :
    Frame.pixel (Frame.setPixel f cx cy b) cx' cy' = if cx' = cx ∧ cy' = cy then b else Frame.pixel f cx' cy' := by
  simp only [Frame.pixel, Frame.setPixel, Vector.get_eq_getElem, Vector.getElem_set, Fin.val_inj]
  by_cases hy : cy = cy'
  · subst hy
    by_cases hx : cx = cx'
    · subst hx; simp
    · simp [hx, Ne.symm hx, Fin.val_inj]
  · simp [hy, Ne.symm hy]

@[simp] theorem Frame.pixel_blank (cx : Fin 64) (cy : Fin 32) : Frame.pixel Frame.blank cx cy = false := by
  simp [Frame.pixel, Frame.blank, Vector.get_eq_getElem]

/-! ## Operands, flags, inputs -/

@[simp] theorem toNat_addrOperand (nnn : Addr) : (addrOperand nnn).toNat = nnn.toNat := by
  have := nnn.isLt
  simp only [addrOperand, BitVec.toNat_setWidth]
  omega

@[simp] theorem toNat_zextByte (b : Byte) : (zextByte b).toNat = b.toNat := by
  have := b.isLt
  simp only [zextByte, BitVec.toNat_setWidth]
  omega

/-- A flag is 0 or 1 (R23). -/
theorem flagByte_cases (c : Bool) : flagByte c = 0 ∨ flagByte c = 1 := by cases c <;> simp [flagByte]

@[simp] theorem length_bcdDigits (b : Byte) : (bcdDigits b).length = 3 := rfl

/-- Everything `glyphAddress` can do (R142). -/
theorem glyphAddress_cases (d : Byte) :
    (d.toNat ≤ 15 ∧ glyphAddress d = some (BitVec.ofNat 16 (5 * d.toNat))) ∨ (15 < d.toNat ∧ glyphAddress d = none) := by
  by_cases h : d.toNat ≤ 15
  · exact .inl ⟨h, by simp [glyphAddress, h]⟩
  · exact .inr ⟨by omega, by simp [glyphAddress, h]⟩

/-- `firstPressed` finds the lowest pressed key, and none only when no key is pressed (R166). -/
theorem firstPressed_some_iff (keys : BitVec 16) (k : Nat) :
    firstPressed keys = some k ↔ k < 16 ∧ keys.getLsbD k = true ∧ ∀ j < k, keys.getLsbD j = false := by
  simp only [firstPressed, config_numKeys, List.find?_range_eq_some]
  simp [and_left_comm]

theorem firstPressed_none_iff (keys : BitVec 16) : firstPressed keys = none ↔ ∀ k < 16, keys.getLsbD k = false := by
  simp [firstPressed]

/-- When a key number names a pressed key (R165). -/
theorem keyPressed_iff (keys : BitVec 16) (k : Byte) :
    keyPressed keys k = true ↔ k.toNat ≤ 15 ∧ keys.getLsbD k.toNat = true := by simp [keyPressed]

/-- No key is found exactly when the latch is empty (R166). -/
theorem firstPressed_none_iff_zero (keys : BitVec 16) : firstPressed keys = none ↔ keys = 0 := by
  rw [firstPressed_none_iff]
  constructor
  · intro h
    ext k hk
    simpa [BitVec.getLsbD_eq_getElem hk] using h k hk
  · rintro rfl k -
    exact BitVec.getLsbD_zero

/-- The key wait with no key down: back to the same instruction (R169). -/
theorem State.keyWait_none (s : State) (x : Nibble) : s.keyWait x none = s.setPc (s.pc - 2) := rfl

/-- The key wait with a key down: its number is stored (R169). -/
theorem State.keyWait_some (s : State) (x : Nibble) (k : Nat) : s.keyWait x (some k) = s.setReg x (BitVec.ofNat 8 k) := rfl

/-- A taken skip from the advanced `pc` (R26). -/
@[simp] theorem pc_add_two_two (a : Word) : a + 2#16 + 2#16 = a + 4#16 := by rw [BitVec.add_assoc]; rfl

@[simp] theorem State.input_advance (s : State) : s.advance.input = s.input := rfl

end Sys2Proof.Machine
end

