-- ==== Sys2Proof/Laws/Draw.lean ====
section
/-! SUPPORT. What a sprite does to the framebuffer and to the collision flag (R156, R157): a sprite is a list of strokes, one per
sprite bit, whose target pixels are all different. -/

namespace Sys2Proof.Machine

/-- A stroke: a target pixel and the sprite bit that falls on it. -/
abbrev Stroke := (Fin 64 × Fin 32) × Bool

/-- Draw strokes in order. -/
def drawStrokes (ks : List Stroke) (d : Drawing) : Drawing := ks.foldl (fun d k => drawPixel k.1.1 k.1.2 k.2 d) d

/-- The strokes of one sprite row. -/
def rowStrokes (bx : Byte) (cy : Fin 32) (bits : Byte) : List Stroke :=
  (List.range 8).map fun col => ((drawColumn bx col, cy), spriteBit bits col)

/-- The strokes of the sprite rows from number `row` on. -/
def spriteStrokes (bx top : Byte) (row : Nat) : List Byte → List Stroke
  | [] => []
  | bits :: rest => rowStrokes bx (drawLine top row) bits ++ spriteStrokes bx top (row + 1) rest

theorem drawRow_eq_drawStrokes (bx : Byte) (cy : Fin 32) (bits : Byte) (d : Drawing) :
    drawRow bx cy bits d = drawStrokes (rowStrokes bx cy bits) d := by
  simp [drawRow, drawStrokes, rowStrokes, List.foldl_map]

theorem drawRows_eq_drawStrokes (bx top : Byte) (row : Nat) (bs : List Byte) (d : Drawing) :
    drawRows bx top row bs d = drawStrokes (spriteStrokes bx top row bs) d := by
  induction bs generalizing row d with
  | nil => rfl
  | cons b bs ih =>
    rw [drawRows, ih, drawRow_eq_drawStrokes, spriteStrokes, drawStrokes, drawStrokes, drawStrokes, List.foldl_append]

/-- The strokes of a sprite, by sprite row and column. -/
theorem mem_spriteStrokes (bx top : Byte) (row : Nat) (bs : List Byte) (k : Stroke) :
    k ∈ spriteStrokes bx top row bs ↔ ∃ r col, r < bs.length ∧ col < 8 ∧
      k = ((drawColumn bx col, drawLine top (row + r)), spriteBit (bs.getD r 0) col) := by
  induction bs generalizing row with
  | nil => simp [spriteStrokes]
  | cons b bs ih =>
    rw [spriteStrokes, List.mem_append, ih]
    constructor
    · rintro (h | ⟨r, col, hr, hc, rfl⟩)
      · obtain ⟨col, hc, rfl⟩ := List.mem_map.mp h
        exact ⟨0, col, by simp, by simpa using hc, by simp⟩
      · exact ⟨r + 1, col, by simpa using hr, hc, by simp [Nat.add_assoc, Nat.add_comm 1]⟩
    · rintro ⟨r, col, hr, hc, rfl⟩
      cases r with
      | zero => exact .inl (List.mem_map.mpr ⟨col, by simpa using hc, by simp⟩)
      | succ r => exact .inr ⟨r, col, by simpa using hr, hc, by simp [Nat.add_assoc, Nat.add_comm 1]⟩

/-- The 8 columns of a sprite are distinct modulo 64 (R157). -/
theorem drawColumn_injective (bx : Byte) {c c' : Nat} (h : c < 8) (h' : c' < 8) (e : drawColumn bx c = drawColumn bx c') :
    c = c' := by
  have := congrArg Fin.val e
  simp only [drawColumn, Fin.ofNat] at this
  omega

/-- The rows of a sprite are distinct modulo 32 (R157). -/
theorem drawLine_injective (top : Byte) {r r' : Nat} (h : r < 32) (h' : r' < 32) (e : drawLine top r = drawLine top r') :
    r = r' := by
  have := congrArg Fin.val e
  simp only [drawLine, Fin.ofNat] at this
  omega

/-- Each pixel is the target of at most one stroke (R157 (a)). -/
theorem nodup_spriteStrokes (bx top : Byte) (row : Nat) (bs : List Byte) (h : row + bs.length ≤ 32) :
    ((spriteStrokes bx top row bs).map Prod.fst).Nodup := by
  induction bs generalizing row with
  | nil => simp [spriteStrokes]
  | cons b bs ih =>
    simp only [List.length_cons] at h
    rw [spriteStrokes, List.map_append, List.nodup_append]
    refine ⟨?_, ih (row + 1) (by omega), ?_⟩
    · rw [rowStrokes, List.map_map]
      refine List.Nodup.map_on ?_ List.nodup_range
      intro c hc c' hc' e
      simp only [Function.comp, Prod.mk.injEq, and_true] at e
      exact drawColumn_injective bx (by simpa using hc) (by simpa using hc') e
    · intro p hp q hq hpq
      obtain ⟨k, hk, rfl⟩ := List.mem_map.mp hp
      obtain ⟨c, -, rfl⟩ := List.mem_map.mp hk
      obtain ⟨k', hk', rfl⟩ := List.mem_map.mp hq
      obtain ⟨r, c', hr, -, rfl⟩ := (mem_spriteStrokes _ _ _ _ _).mp hk'
      have := drawLine_injective top (r := row) (r' := row + 1 + r) (by omega) (by omega) (congrArg Prod.snd hpq)
      omega

/-- Strokes leave a pixel none of them targets alone. -/
theorem drawStrokes_pixel_other (ks : List Stroke) (d : Drawing) (cx : Fin 64) (cy : Fin 32) (h : (cx, cy) ∉ ks.map Prod.fst) :
    Frame.pixel (drawStrokes ks d).1 cx cy = Frame.pixel d.1 cx cy := by
  induction ks generalizing d with
  | nil => rfl
  | cons k ks ih =>
    simp only [List.map_cons, List.mem_cons, not_or] at h
    rw [drawStrokes, List.foldl_cons, ← drawStrokes, ih _ h.2, drawPixel, Frame.pixel_setPixel, if_neg]
    rintro ⟨rfl, rfl⟩
    exact h.1 rfl

/-- The pixel of a stroke ends as old XOR bit, when targets are all different (R157 (a)). -/
theorem drawStrokes_pixel_target (ks : List Stroke) (d : Drawing) (h : (ks.map Prod.fst).Nodup) (k : Stroke) (hk : k ∈ ks) :
    Frame.pixel (drawStrokes ks d).1 k.1.1 k.1.2 = (Frame.pixel d.1 k.1.1 k.1.2 ^^ k.2) := by
  induction ks generalizing d with
  | nil => cases hk
  | cons j ks ih =>
    simp only [List.map_cons, List.nodup_cons] at h
    rw [drawStrokes, List.foldl_cons, ← drawStrokes]
    rcases List.mem_cons.mp hk with rfl | hk'
    · rw [drawStrokes_pixel_other _ _ _ _ h.1]
      simp [drawPixel]
    · rw [ih _ h.2 hk', drawPixel, Frame.pixel_setPixel, if_neg]
      rintro ⟨h1, h2⟩
      exact h.1 (List.mem_map.mpr ⟨k, hk', Prod.ext h1 h2⟩)

/-- The collision flag is set exactly when some stroke turns a pixel from 1 to 0 (R157 (b)). -/
theorem drawStrokes_collision (ks : List Stroke) (d : Drawing) (h : (ks.map Prod.fst).Nodup) :
    (drawStrokes ks d).2 = true ↔ d.2 = true ∨ ∃ k ∈ ks, Frame.pixel d.1 k.1.1 k.1.2 = true ∧ k.2 = true := by
  induction ks generalizing d with
  | nil => simp [drawStrokes]
  | cons j ks ih =>
    simp only [List.map_cons, List.nodup_cons] at h
    have hkeep : ∀ k ∈ ks, Frame.pixel (drawPixel j.1.1 j.1.2 j.2 d).1 k.1.1 k.1.2 = Frame.pixel d.1 k.1.1 k.1.2 := by
      intro k hk
      rw [drawPixel, Frame.pixel_setPixel, if_neg]
      rintro ⟨h1, h2⟩
      exact h.1 (List.mem_map.mpr ⟨k, hk, Prod.ext h1 h2⟩)
    rw [drawStrokes, List.foldl_cons, ← drawStrokes, ih _ h.2]
    constructor
    · rintro (hd | ⟨k, hk, hp, hb⟩)
      · rcases (by simpa [drawPixel] using hd : d.2 = true ∨ _) with hd | hd
        · exact .inl hd
        · exact .inr ⟨j, List.mem_cons_self, hd⟩
      · exact .inr ⟨k, List.mem_cons_of_mem _ hk, hkeep k hk ▸ hp, hb⟩
    · rintro (hd | ⟨k, hk, hp, hb⟩)
      · exact .inl (by simp [drawPixel, hd])
      · rcases List.mem_cons.mp hk with rfl | hk'
        · exact .inl (by simp [drawPixel, hp, hb])
        · exact .inr ⟨k, hk', (hkeep k hk').symm ▸ hp, hb⟩

/-- The screen after a sprite is drawn, on a target pixel. -/
theorem State.drawSprite_pixel_target (s : State) (bx top : Byte) (bs : List Byte) (hlen : bs.length ≤ 15) {r col : Nat}
    (hr : r < bs.length) (hc : col < 8) :
    (s.drawSprite bx top bs).pixel (drawColumn bx col) (drawLine top r) =
      (s.pixel (drawColumn bx col) (drawLine top r) ^^ spriteBit (bs.getD r 0) col) := by
  have hmem := (mem_spriteStrokes bx top 0 bs ((drawColumn bx col, drawLine top r), spriteBit (bs.getD r 0) col)).mpr
    ⟨r, col, hr, hc, by rw [Nat.zero_add]⟩
  have := drawStrokes_pixel_target _ (s.fb, false) (nodup_spriteStrokes bx top 0 bs (by omega)) _ hmem
  simpa [State.pixel, drawRows_eq_drawStrokes] using this

/-- The screen after a sprite is drawn, off the sprite. -/
theorem State.drawSprite_pixel_other (s : State) (bx top : Byte) (bs : List Byte) (cx : Fin 64) (cy : Fin 32)
    (h : ∀ r col, r < bs.length → col < 8 → ¬(drawColumn bx col = cx ∧ drawLine top r = cy)) :
    (s.drawSprite bx top bs).pixel cx cy = s.pixel cx cy := by
  have : (cx, cy) ∉ (spriteStrokes bx top 0 bs).map Prod.fst := by
    rintro hm
    obtain ⟨k, hk, he⟩ := List.mem_map.mp hm
    obtain ⟨r, col, hr, hc, rfl⟩ := (mem_spriteStrokes _ _ _ _ _).mp hk
    rw [Nat.zero_add, Prod.mk.injEq] at he
    exact h r col hr hc he
  simpa [State.pixel, drawRows_eq_drawStrokes] using drawStrokes_pixel_other _ (s.fb, false) cx cy this

/-- The registers after a sprite is drawn: only `VF` is written, with the collision flag. -/
theorem State.drawSprite_reg (s : State) (bx top : Byte) (bs : List Byte) (r : Nibble) :
    (s.drawSprite bx top bs).reg r =
      if r = 15#4 then flagByte (drawRows bx top 0 bs (s.fb, false)).2 else s.reg r := by
  rw [State.drawSprite, State.reg_setFlag]
  rfl

/-- When the collision flag is set. -/
theorem drawRows_collision (f : Frame) (bx top : Byte) (bs : List Byte) (hlen : bs.length ≤ 15) :
    (drawRows bx top 0 bs (f, false)).2 = true ↔ ∃ r col, r < bs.length ∧ col < 8 ∧
      Frame.pixel f (drawColumn bx col) (drawLine top r) = true ∧ spriteBit (bs.getD r 0) col = true := by
  rw [drawRows_eq_drawStrokes, drawStrokes_collision _ _ (nodup_spriteStrokes bx top 0 bs (by omega))]
  constructor
  · rintro (h | ⟨k, hk, hp⟩)
    · cases h
    · obtain ⟨r, col, hr, hc, rfl⟩ := (mem_spriteStrokes _ _ _ _ _).mp hk
      rw [Nat.zero_add] at hp
      exact ⟨r, col, hr, hc, hp⟩
  · rintro ⟨r, col, hr, hc, hp⟩
    exact .inr ⟨_, (mem_spriteStrokes bx top 0 bs _).mpr ⟨r, col, hr, hc, rfl⟩, by rw [Nat.zero_add]; exact hp⟩

end Sys2Proof.Machine
end

