-- ==== Sys2Proof/Laws/PerInstr.lean ====
section
/-! SUPPORT. The family EncodeFits, one lemma per instruction: the word of an instruction is the word of its own row of R76. -/

namespace Sys2Proof.Laws.EncodeFits

/-- The word of `i` selects a row of the opcode map, and that row builds `i` from it; for `SYS`, which has no row, the carried
fields are the word's. -/
def Statement (i : Instr) : Prop :=
  match i with
  | .sys op nnn => fieldOp (encode i) = op ∧ fieldNNN (encode i) = nnn
  | _ => ∃ r ∈ opcodeRows, r.hits (encode i) = true ∧ r.build (encode i) = i

/-- A row that hits and builds is a witness of the statement. -/
theorem fits {i : Instr} (r : Row) (hr : r ∈ opcodeRows) (hm : encode i &&& r.mask = r.pat) (hb : r.build (encode i) = i) :
    ∃ r ∈ opcodeRows, r.hits (encode i) = true ∧ r.build (encode i) = i := ⟨r, hr, beq_iff_eq.mpr hm, hb⟩

theorem cls : Statement .cls :=
  fits (opcodeRows[0]'(by decide)) (List.getElem_mem _) (rfl) (rfl)
theorem ret : Statement .ret :=
  fits (opcodeRows[1]'(by decide)) (List.getElem_mem _) (rfl) (rfl)
theorem jp (nnn : Addr) : Statement (.jp nnn) :=
  fits (opcodeRows[2]'(by decide)) (List.getElem_mem _) (mask_F000 _ nnn) (congrArg Instr.jp (fieldNNN_nnn _ nnn))
theorem call (nnn : Addr) : Statement (.call nnn) :=
  fits (opcodeRows[3]'(by decide)) (List.getElem_mem _) (mask_F000 _ nnn) (congrArg Instr.call (fieldNNN_nnn _ nnn))
theorem seImm (x : Nibble) (kk : Byte) : Statement (.seImm x kk) :=
  fits (opcodeRows[4]'(by decide)) (List.getElem_mem _) ((congrArg (· &&& 0xF000#16) (xkk_eq_nnn _ x kk)).trans (mask_F000 _ _)) (congrArg₂ Instr.seImm (fieldX_xkk _ x kk) (fieldKK_xkk _ x kk))
theorem sneImm (x : Nibble) (kk : Byte) : Statement (.sneImm x kk) :=
  fits (opcodeRows[5]'(by decide)) (List.getElem_mem _) ((congrArg (· &&& 0xF000#16) (xkk_eq_nnn _ x kk)).trans (mask_F000 _ _)) (congrArg₂ Instr.sneImm (fieldX_xkk _ x kk) (fieldKK_xkk _ x kk))
theorem seReg (x y : Nibble) : Statement (.seReg x y) :=
  fits (opcodeRows[6]'(by decide)) (List.getElem_mem _) (mask_F00F _ x y _) (congrArg₂ Instr.seReg (fieldX_xyn _ x y _) (fieldY_xyn _ x y _))
theorem ldImm (x : Nibble) (kk : Byte) : Statement (.ldImm x kk) :=
  fits (opcodeRows[7]'(by decide)) (List.getElem_mem _) ((congrArg (· &&& 0xF000#16) (xkk_eq_nnn _ x kk)).trans (mask_F000 _ _)) (congrArg₂ Instr.ldImm (fieldX_xkk _ x kk) (fieldKK_xkk _ x kk))
theorem addImm (x : Nibble) (kk : Byte) : Statement (.addImm x kk) :=
  fits (opcodeRows[8]'(by decide)) (List.getElem_mem _) ((congrArg (· &&& 0xF000#16) (xkk_eq_nnn _ x kk)).trans (mask_F000 _ _)) (congrArg₂ Instr.addImm (fieldX_xkk _ x kk) (fieldKK_xkk _ x kk))
theorem ldReg (x y : Nibble) : Statement (.ldReg x y) :=
  fits (opcodeRows[9]'(by decide)) (List.getElem_mem _) (mask_F00F _ x y _) (congrArg₂ Instr.ldReg (fieldX_xyn _ x y _) (fieldY_xyn _ x y _))
theorem orReg (x y : Nibble) : Statement (.orReg x y) :=
  fits (opcodeRows[10]'(by decide)) (List.getElem_mem _) (mask_F00F _ x y _) (congrArg₂ Instr.orReg (fieldX_xyn _ x y _) (fieldY_xyn _ x y _))
theorem andReg (x y : Nibble) : Statement (.andReg x y) :=
  fits (opcodeRows[11]'(by decide)) (List.getElem_mem _) (mask_F00F _ x y _) (congrArg₂ Instr.andReg (fieldX_xyn _ x y _) (fieldY_xyn _ x y _))
theorem xorReg (x y : Nibble) : Statement (.xorReg x y) :=
  fits (opcodeRows[12]'(by decide)) (List.getElem_mem _) (mask_F00F _ x y _) (congrArg₂ Instr.xorReg (fieldX_xyn _ x y _) (fieldY_xyn _ x y _))
theorem addReg (x y : Nibble) : Statement (.addReg x y) :=
  fits (opcodeRows[13]'(by decide)) (List.getElem_mem _) (mask_F00F _ x y _) (congrArg₂ Instr.addReg (fieldX_xyn _ x y _) (fieldY_xyn _ x y _))
theorem sub (x y : Nibble) : Statement (.sub x y) :=
  fits (opcodeRows[14]'(by decide)) (List.getElem_mem _) (mask_F00F _ x y _) (congrArg₂ Instr.sub (fieldX_xyn _ x y _) (fieldY_xyn _ x y _))
theorem shr (x y : Nibble) : Statement (.shr x y) :=
  fits (opcodeRows[15]'(by decide)) (List.getElem_mem _) (mask_F00F _ x y _) (congrArg₂ Instr.shr (fieldX_xyn _ x y _) (fieldY_xyn _ x y _))
theorem subn (x y : Nibble) : Statement (.subn x y) :=
  fits (opcodeRows[16]'(by decide)) (List.getElem_mem _) (mask_F00F _ x y _) (congrArg₂ Instr.subn (fieldX_xyn _ x y _) (fieldY_xyn _ x y _))
theorem shl (x y : Nibble) : Statement (.shl x y) :=
  fits (opcodeRows[17]'(by decide)) (List.getElem_mem _) (mask_F00F _ x y _) (congrArg₂ Instr.shl (fieldX_xyn _ x y _) (fieldY_xyn _ x y _))
theorem sneReg (x y : Nibble) : Statement (.sneReg x y) :=
  fits (opcodeRows[18]'(by decide)) (List.getElem_mem _) (mask_F00F _ x y _) (congrArg₂ Instr.sneReg (fieldX_xyn _ x y _) (fieldY_xyn _ x y _))
theorem ldI (nnn : Addr) : Statement (.ldI nnn) :=
  fits (opcodeRows[19]'(by decide)) (List.getElem_mem _) (mask_F000 _ nnn) (congrArg Instr.ldI (fieldNNN_nnn _ nnn))
theorem jpV0 (nnn : Addr) : Statement (.jpV0 nnn) :=
  fits (opcodeRows[20]'(by decide)) (List.getElem_mem _) (mask_F000 _ nnn) (congrArg Instr.jpV0 (fieldNNN_nnn _ nnn))
theorem rnd (x : Nibble) (kk : Byte) : Statement (.rnd x kk) :=
  fits (opcodeRows[21]'(by decide)) (List.getElem_mem _) ((congrArg (· &&& 0xF000#16) (xkk_eq_nnn _ x kk)).trans (mask_F000 _ _)) (congrArg₂ Instr.rnd (fieldX_xkk _ x kk) (fieldKK_xkk _ x kk))
theorem drw (x y n : Nibble) : Statement (.drw x y n) :=
  fits (opcodeRows[22]'(by decide)) (List.getElem_mem _) ((congrArg (· &&& 0xF000#16) ((xyn_eq_xkk _ x y n).trans (xkk_eq_nnn _ x _))).trans (mask_F000 _ _)) (by
    show Instr.drw _ _ _ = _
    rw [encode, fieldX_xyn, fieldY_xyn, fieldN_xyn])
theorem skp (x : Nibble) : Statement (.skp x) :=
  fits (opcodeRows[23]'(by decide)) (List.getElem_mem _) (mask_F0FF _ x _) (congrArg Instr.skp (fieldX_xkk _ x _))
theorem sknp (x : Nibble) : Statement (.sknp x) :=
  fits (opcodeRows[24]'(by decide)) (List.getElem_mem _) (mask_F0FF _ x _) (congrArg Instr.sknp (fieldX_xkk _ x _))
theorem ldFromDt (x : Nibble) : Statement (.ldFromDt x) :=
  fits (opcodeRows[25]'(by decide)) (List.getElem_mem _) (mask_F0FF _ x _) (congrArg Instr.ldFromDt (fieldX_xkk _ x _))
theorem ldKey (x : Nibble) : Statement (.ldKey x) :=
  fits (opcodeRows[26]'(by decide)) (List.getElem_mem _) (mask_F0FF _ x _) (congrArg Instr.ldKey (fieldX_xkk _ x _))
theorem ldToDt (x : Nibble) : Statement (.ldToDt x) :=
  fits (opcodeRows[27]'(by decide)) (List.getElem_mem _) (mask_F0FF _ x _) (congrArg Instr.ldToDt (fieldX_xkk _ x _))
theorem ldToSt (x : Nibble) : Statement (.ldToSt x) :=
  fits (opcodeRows[28]'(by decide)) (List.getElem_mem _) (mask_F0FF _ x _) (congrArg Instr.ldToSt (fieldX_xkk _ x _))
theorem addI (x : Nibble) : Statement (.addI x) :=
  fits (opcodeRows[29]'(by decide)) (List.getElem_mem _) (mask_F0FF _ x _) (congrArg Instr.addI (fieldX_xkk _ x _))
theorem ldGlyph (x : Nibble) : Statement (.ldGlyph x) :=
  fits (opcodeRows[30]'(by decide)) (List.getElem_mem _) (mask_F0FF _ x _) (congrArg Instr.ldGlyph (fieldX_xkk _ x _))
theorem ldBcd (x : Nibble) : Statement (.ldBcd x) :=
  fits (opcodeRows[31]'(by decide)) (List.getElem_mem _) (mask_F0FF _ x _) (congrArg Instr.ldBcd (fieldX_xkk _ x _))
theorem storeRegs (x : Nibble) : Statement (.storeRegs x) :=
  fits (opcodeRows[32]'(by decide)) (List.getElem_mem _) (mask_F0FF _ x _) (congrArg Instr.storeRegs (fieldX_xkk _ x _))
theorem loadRegs (x : Nibble) : Statement (.loadRegs x) :=
  fits (opcodeRows[33]'(by decide)) (List.getElem_mem _) (mask_F0FF _ x _) (congrArg Instr.loadRegs (fieldX_xkk _ x _))
theorem sys (op : Nibble) (nnn : Addr) : Statement (.sys op nnn) := ⟨fieldOp_nnn op nnn, fieldNNN_nnn op nnn⟩

end Sys2Proof.Laws.EncodeFits
end

