-- ==== Sys2Proof/Laws/Step.lean ====
section
/-! SUPPORT. What each faulting instruction, the fetch and the step can do, and how a frame is shown. -/

namespace Sys2Proof.Machine

/-! ## Frames -/

/-- A frame from equal fields: each part not listed is unchanged when its fields are. -/
theorem KeepsAllBut.of_fields {ps : List Part} {s t : State} (hv : Part.regs ∈ ps ∨ t.v = s.v)
    (hi : Part.addressReg ∈ ps ∨ t.i = s.i) (hpc : Part.pc ∈ ps ∨ t.pc = s.pc)
    (hst : Part.stack ∈ ps ∨ t.sp = s.sp ∧ t.stack = s.stack) (hd : Part.delayTimer ∈ ps ∨ t.dt = s.dt)
    (hs : Part.soundTimer ∈ ps ∨ t.st = s.st) (hm : Part.memory ∈ ps ∨ t.mem = s.mem) (hf : Part.screen ∈ ps ∨ t.fb = s.fb)
    (hh : Part.status ∈ ps ∨ t.halted = s.halted ∧ t.fault = s.fault)
    (ho : Part.host ∈ ps ∨ t.inputs = s.inputs ∧ t.drawn = s.drawn) : KeepsAllBut ps s t := by
  intro p hp
  cases p with
  | regs => exact fun r => by rw [State.reg, State.reg]; simp only [hv.resolve_left hp]
  | addressReg => exact hi.resolve_left hp
  | pc => exact hpc.resolve_left hp
  | stack => exact ⟨(hst.resolve_left hp).1, fun k => by rw [State.slot, State.slot, (hst.resolve_left hp).2]⟩
  | delayTimer => exact hd.resolve_left hp
  | soundTimer => exact hs.resolve_left hp
  | memory => exact fun a => by rw [State.memByte, State.memByte, hm.resolve_left hp]
  | screen => exact fun cx cy => by rw [State.pixel, State.pixel, hf.resolve_left hp]
  | status => exact hh.resolve_left hp
  | host => exact ho.resolve_left hp

theorem KeepsAllBut.trans {ps : List Part} {s t u : State} (h : KeepsAllBut ps s t) (h' : KeepsAllBut ps t u) :
    KeepsAllBut ps s u := by
  intro p hp
  have h1 := h p hp
  have h2 := h' p hp
  cases p <;> simp_all [Part.same]

/-! ## The faulting instructions -/

theorem faulted_eq (s : State) (k : Fault) (o : Option Word) : faulted s k o = s.takeFault k o := rfl

/-- Everything `CALL` can do (R102). -/
theorem execCall_cases (nnn : Addr) (s : State) :
    (∃ h : s.sp.val < 16, execCall nnn s = .next
      { s with pc := addrOperand nnn, sp := ⟨s.sp.val + 1, by omega⟩, stack := s.stack.set s.sp.val (s.pc + 2) h }) ∨
    (s.sp.val = 16 ∧ execCall nnn s = raise .stackOverflow (.call nnn) s) := by
  rcases s.advance.push_cases s.advance.pc with ⟨h, e⟩ | ⟨h, e⟩
  · exact .inl ⟨h, by rw [execCall, e]; rfl⟩
  · exact .inr ⟨h, by rw [execCall, e]⟩

/-- Everything `RET` can do (R103). -/
theorem execRet_cases (s : State) :
    (0 < s.sp.val ∧ ∃ h : s.sp.val - 1 < 17, execRet s = .next { s with pc := s.slot s.sp.val, sp := ⟨s.sp.val - 1, h⟩ }) ∨
    (s.sp.val = 0 ∧ execRet s = raise .stackUnderflow .ret s) := by
  rcases s.advance.pop_cases with ⟨h, hlt, e⟩ | ⟨h, e⟩
  · exact .inl ⟨h, hlt, by rw [execRet, e]; rfl⟩
  · exact .inr ⟨h, by rw [execRet, e]⟩

/-- Everything `LD F, Vx` can do (R142). -/
theorem execLdGlyph_cases (x : Nibble) (s : State) :
    ((s.reg x).toNat ≤ 15 ∧ execLdGlyph x s = .next (s.advance.setI (BitVec.ofNat 16 (5 * (s.reg x).toNat)))) ∨
    (15 < (s.reg x).toNat ∧ execLdGlyph x s = raise .glyphIndexOutOfRange (.ldGlyph x) s) := by
  rcases glyphAddress_cases (s.reg x) with ⟨h, e⟩ | ⟨h, e⟩
  · exact .inl ⟨h, by rw [execLdGlyph, e]⟩
  · exact .inr ⟨h, by rw [execLdGlyph, e]⟩

/-- Everything `LD B, Vx` can do (R143). -/
theorem execLdBcd_cases (x : Nibble) (s : State) :
    (inRange s.i.toNat 3 = true ∧
      execLdBcd x s = .next { s.advance with mem := Memory.writeBytes s.mem s.i.toNat (bcdDigits (s.reg x)) }) ∨
    (inRange s.i.toNat 3 = false ∧ execLdBcd x s = raise .memoryOutOfBounds (.ldBcd x) s) := by
  rcases s.advance.storeBytes_cases s.i.toNat (bcdDigits (s.reg x)) with ⟨h, e⟩ | ⟨h, e⟩
  · exact .inl ⟨h, by rw [execLdBcd, e]; rfl⟩
  · exact .inr ⟨h, by rw [execLdBcd, e]⟩

/-- Everything `LD [I], Vx` can do (R144). -/
theorem execStoreRegs_cases (x : Nibble) (s : State) :
    (inRange s.i.toNat (x.toNat + 1) = true ∧
      execStoreRegs x s = .next { s.advance with mem := Memory.writeBytes s.mem s.i.toNat (s.regsUpTo x) }) ∨
    (inRange s.i.toNat (x.toNat + 1) = false ∧ execStoreRegs x s = raise .memoryOutOfBounds (.storeRegs x) s) := by
  rcases s.advance.storeBytes_cases s.i.toNat (s.regsUpTo x) with ⟨h, e⟩ | ⟨h, e⟩
  · exact .inl ⟨by rwa [State.length_regsUpTo] at h, by rw [execStoreRegs, e]; rfl⟩
  · exact .inr ⟨by rwa [State.length_regsUpTo] at h, by rw [execStoreRegs, e]⟩

/-- Everything `LD Vx, [I]` can do (R145). -/
theorem execLoadRegs_cases (x : Nibble) (s : State) :
    (inRange s.i.toNat (x.toNat + 1) = true ∧
      execLoadRegs x s = .next (s.advance.setRegs (Memory.readBytes s.mem s.i.toNat (x.toNat + 1)))) ∨
    (inRange s.i.toNat (x.toNat + 1) = false ∧ execLoadRegs x s = raise .memoryOutOfBounds (.loadRegs x) s) := by
  rcases s.loadBytes_cases s.i.toNat (x.toNat + 1) with ⟨h, e⟩ | ⟨h, e⟩
  · exact .inl ⟨h, by rw [execLoadRegs, e]⟩
  · exact .inr ⟨h, by rw [execLoadRegs, e]⟩

/-- Everything `DRW` can do (R156). -/
theorem execDrw_cases (x y n : Nibble) (s : State) :
    (inRange s.i.toNat n.toNat = true ∧ execDrw x y n s =
      .next (s.advance.drawSprite (s.reg x) (s.reg y) (Memory.readBytes s.mem s.i.toNat n.toNat))) ∨
    (inRange s.i.toNat n.toNat = false ∧ execDrw x y n s = raise .memoryOutOfBounds (.drw x y n) s) := by
  rcases s.loadBytes_cases s.i.toNat n.toNat with ⟨h, e⟩ | ⟨h, e⟩
  · exact .inl ⟨h, by rw [execDrw, e]⟩
  · exact .inr ⟨h, by rw [execDrw, e]⟩

/-! ## The step -/

/-- Everything the fetch can do (R91). -/
theorem State.fetch_cases (s : State) :
    (s.pc.toNat + 1 < config.memSize ∧ s.fetch = some (wordAtPc s)) ∨ (config.memSize ≤ s.pc.toNat + 1 ∧ s.fetch = none) := by
  rcases s.loadBytes_cases s.pc.toNat config.instrBytes with ⟨h, e⟩ | ⟨h, e⟩
  · rw [inRange_iff] at h
    simp only [config_instrBytes, config_memSize] at h ⊢
    exact .inl ⟨by omega, by rw [State.fetch, e]; rfl⟩
  · have h' := mt (inRange_iff s.pc.toNat config.instrBytes).mpr (by rw [h]; exact Bool.false_ne_true)
    simp only [config_instrBytes, config_memSize] at h' ⊢
    exact .inr ⟨by omega, by rw [State.fetch, e]⟩

/-- Everything a step can do (40_step_cycle.md). -/
theorem step_cases (s : State) :
    (s.halted = true ∧ step s = .next s) ∨
    (s.halted = false ∧ config.memSize ≤ s.pc.toNat + 1 ∧ step s = .next (s.takeFault .memoryOutOfBounds none)) ∨
    (s.halted = false ∧ s.pc.toNat + 1 < config.memSize ∧ step s = finish (exec (decodeWord (wordAtPc s)) s)) := by
  cases hh : s.halted
  · rcases s.fetch_cases with ⟨h, e⟩ | ⟨h, e⟩
    · exact .inr (.inr ⟨rfl, h, by simp [step, hh, e]⟩)
    · exact .inr (.inl ⟨rfl, h, by simp [step, hh, e]⟩)
  · exact .inl ⟨rfl, by simp [step, hh]⟩

@[simp] theorem finish_next (s : State) : finish (.next s) = .next s.endStep := rfl

/-- The end of a step that faulted: nothing more happens (R96). -/
theorem State.endStep_halted {s : State} (h : s.halted = true) : s.endStep = s := by simp [State.endStep, h]

/-- The end of a step that did not fault (R94). -/
theorem State.endStep_running {s : State} (h : s.halted = false) : s.endStep = s.tickTimers.takeInput := by
  simp [State.endStep, h]

/-- A timer at the end of a step, as numbers: saturating at 0 (R94). -/
theorem toNat_countDown (tick : Bool) (b : Byte) : (countDown tick b).toNat = b.toNat - (if tick then 1 else 0) := by
  unfold countDown
  cases tick
  · simp
  · by_cases hb : b = 0
    · simp [hb]
    · have : 0 < b.toNat := Nat.pos_of_ne_zero fun h => hb (BitVec.eq_of_toNat_eq h)
      have hlt := b.isLt
      simp only [bne_iff_ne, ne_eq, hb, not_false_eq_true, Bool.and_true, if_true]
      rw [BitVec.toNat_sub, show (1 : Byte).toNat = 1 from rfl]
      omega

/-! ## Runs -/

theorem run_zero (s : State) : Sys2Proof.core.run 0 s = .next s := rfl

/-- One step of a run that goes on. -/
theorem run_succ {s t : State} (k : Nat) (h : step s = .next t) : Sys2Proof.core.run (k + 1) s = Sys2Proof.core.run k t := by
  have h' : Sys2Proof.core.step s = .next t := h
  exact (Host.Core.run.eq_2 Sys2Proof.core s k).trans (by rw [h'])

end Sys2Proof.Machine
end

