-- ==== Sys2Proof/Tests/Slice0.lean ====
section
/-! SUPPORT. Tests of the model. Expected results come from the spec: `V-…` and `S…` are rows of 95_test_vectors.md, other words are
written out from the patterns of R76. `witness_<Name>` shows that the hypotheses of `Obligations.<Name>` can be met. -/

open Sys2Proof Sys2Proof.Machine

/-! ## Helpers -/

/-- The start state of the vectors: reset, the word at 0x200, and one step's inputs. -/
def startWith (inp : Input) (w : Nat) : State := { State.reset.withFetchWord 16 w with inputs := [inp] }

/-- As `startWith`, with `keys`, `rnd` and `tick` all 0. -/
def start (w : Nat) : State := startWith ⟨0, 0, false⟩ w

/-- As `startWith`, with `tick` 1. -/
def startTick (w : Nat) : State := startWith ⟨0, 0, true⟩ w

/-- A look at the next state. -/
def after {α : Type} (f : State → α) : Host.Outcome State Fault Refusal → Option α
  | .next t => some (f t)
  | .fault _ => none
  | .refused _ => none

/-- `s` with some registers set. -/
def withRegs (rs : List (Nibble × Byte)) (s : State) : State := rs.foldl (fun t r => t.setReg r.1 r.2) s

/-- `s` with some bytes stored. -/
def withBytes (a : Nat) (bs : List Byte) (s : State) : State := { s with mem := Memory.writeBytes s.mem a bs }

/-- `s` with one pixel lit. -/
def withPixel (cx : Fin 64) (cy : Fin 32) (s : State) : State := { s with fb := Frame.setPixel s.fb cx cy true }

/-- The fault record of the next state, and its `pc`. -/
def recordAfter (o : Host.Outcome State Fault Refusal) : Option (Option FaultRecord × Word) := after (fun t => (t.fault, t.pc)) o

/-! ## Well-formedness: the words another row takes are no `SYS` -/

theorem test_wf_refuses_cls_as_sys : (Instr.sys 0x0 0x0E0).wf = false := by decide
theorem test_wf_refuses_ret_as_sys : (Instr.sys 0x0 0x0EE).wf = false := by decide
theorem test_wf_refuses_whole_rows_as_sys :
    [0x1, 0x2, 0x3, 0x4, 0x6, 0x7, 0xA, 0xB, 0xC, 0xD].all (fun op => !(Instr.sys op 0x123).wf) = true := by decide
theorem test_wf_refuses_seReg_as_sys : (Instr.sys 0x5 0xAB0).wf = false := by decide
theorem test_wf_refuses_alu_as_sys :
    [0xAB0, 0xAB1, 0xAB2, 0xAB3, 0xAB4, 0xAB5, 0xAB6, 0xAB7, 0xABE].all (fun nnn => !(Instr.sys 0x8 nnn).wf) = true := by decide
theorem test_wf_refuses_sneReg_as_sys : (Instr.sys 0x9 0xAB0).wf = false := by decide
theorem test_wf_refuses_keys_as_sys : [0x19E, 0x1A1].all (fun nnn => !(Instr.sys 0xE nnn).wf) = true := by decide
theorem test_wf_refuses_f_rows_as_sys :
    [0x307, 0x30A, 0x315, 0x318, 0x31E, 0x329, 0x333, 0x355, 0x365].all (fun nnn => !(Instr.sys 0xF nnn).wf) = true := by decide
/-- The fall-back words of V-E3, V-E4, V-E7, V-E9, V-E11, V-E12, V-E14, V-E16, V-E17 are `SYS`. -/
theorem test_wf_accepts_fallback : [Instr.sys 0 0x0E1, .sys 0 0, .sys 5 0xAB1, .sys 8 0xAB8, .sys 8 0xABF, .sys 9 0xAB1,
    .sys 0xE 0x19F, .sys 0xF 0x366, .sys 0xF 0xFFF].all Instr.wf = true := by decide

/-! ## Decoding, one word a constructor -/

theorem test_decode_cls : decodeTableWord 16 0x00E0 = some .cls := by decide
theorem test_decode_ret : decodeTableWord 16 0x00EE = some .ret := by decide
theorem test_decode_jp : decodeTableWord 16 0x10E0 = some (.jp 0x0E0) := by decide
theorem test_decode_call : decodeTableWord 16 0x2300 = some (.call 0x300) := by decide
theorem test_decode_seImm : decodeTableWord 16 0x332A = some (.seImm 3 0x2A) := by decide
theorem test_decode_sneImm : decodeTableWord 16 0x432A = some (.sneImm 3 0x2A) := by decide
theorem test_decode_seReg : decodeTableWord 16 0x5AB0 = some (.seReg 0xA 0xB) := by decide
theorem test_decode_ldImm : decodeTableWord 16 0x6005 = some (.ldImm 0 5) := by decide
theorem test_decode_addImm : decodeTableWord 16 0x7003 = some (.addImm 0 3) := by decide
theorem test_decode_ldReg : decodeTableWord 16 0x8120 = some (.ldReg 1 2) := by decide
theorem test_decode_orReg : decodeTableWord 16 0x8121 = some (.orReg 1 2) := by decide
theorem test_decode_andReg : decodeTableWord 16 0x8122 = some (.andReg 1 2) := by decide
theorem test_decode_xorReg : decodeTableWord 16 0x8123 = some (.xorReg 1 2) := by decide
theorem test_decode_addReg : decodeTableWord 16 0x8124 = some (.addReg 1 2) := by decide
theorem test_decode_sub : decodeTableWord 16 0x8125 = some (.sub 1 2) := by decide
theorem test_decode_shr : decodeTableWord 16 0x8126 = some (.shr 1 2) := by decide
theorem test_decode_subn : decodeTableWord 16 0x8AB7 = some (.subn 0xA 0xB) := by decide
theorem test_decode_shl : decodeTableWord 16 0x8ABE = some (.shl 0xA 0xB) := by decide
theorem test_decode_sneReg : decodeTableWord 16 0x9120 = some (.sneReg 1 2) := by decide
theorem test_decode_ldI : decodeTableWord 16 0xA2F0 = some (.ldI 0x2F0) := by decide
theorem test_decode_jpV0 : decodeTableWord 16 0xBFFF = some (.jpV0 0xFFF) := by decide
theorem test_decode_rnd : decodeTableWord 16 0xC7A5 = some (.rnd 7 0xA5) := by decide
theorem test_decode_drw : decodeTableWord 16 0xD12F = some (.drw 1 2 15) := by decide
theorem test_decode_skp : decodeTableWord 16 0xE19E = some (.skp 1) := by decide
theorem test_decode_sknp : decodeTableWord 16 0xE2A1 = some (.sknp 2) := by decide
theorem test_decode_ldFromDt : decodeTableWord 16 0xF507 = some (.ldFromDt 5) := by decide
theorem test_decode_ldKey : decodeTableWord 16 0xF30A = some (.ldKey 3) := by decide
theorem test_decode_ldToDt : decodeTableWord 16 0xF515 = some (.ldToDt 5) := by decide
theorem test_decode_ldToSt : decodeTableWord 16 0xF518 = some (.ldToSt 5) := by decide
theorem test_decode_addI : decodeTableWord 16 0xF21E = some (.addI 2) := by decide
theorem test_decode_ldGlyph : decodeTableWord 16 0xF429 = some (.ldGlyph 4) := by decide
theorem test_decode_ldBcd : decodeTableWord 16 0xF033 = some (.ldBcd 0) := by decide
theorem test_decode_storeRegs : decodeTableWord 16 0xF255 = some (.storeRegs 2) := by decide
theorem test_decode_loadRegs : decodeTableWord 16 0xF365 = some (.loadRegs 3) := by decide
/-- V-E3, V-E4, V-E7, V-E9, V-E11, V-E12, V-E14, V-E16, V-E17. -/
theorem test_decode_sys :
    [0x00E1, 0x0000, 0x5AB1, 0x8AB8, 0x8ABF, 0x9AB1, 0xE19F, 0xF366, 0xFFFF].map (decodeTableWord 16) =
    [some (.sys 0 0x0E1), some (.sys 0 0), some (.sys 5 0xAB1), some (.sys 8 0xAB8), some (.sys 8 0xABF), some (.sys 9 0xAB1),
     some (.sys 0xE 0x19F), some (.sys 0xF 0x366), some (.sys 0xF 0xFFF)] := by decide
/-- R71: an instruction is two bytes, and the rest is handed back. -/
theorem test_decode_bytes : decode [0x60, 0x05, 0x70] = .ok (.ldImm 0 5, [0x70]) := rfl
theorem test_decode_truncated : decode [0x60] = .error .truncated := rfl

/-! ## Control transfer and the step -/

/-- V-C9. -/
theorem test_sys_ticks : after (fun t => (t.pc, t.dt, t.st)) (step ((startTick 0x0123).setDt 5)) = some (0x202, 4, 0) := by decide
/-- V-C10. -/
theorem test_sys_unassigned : after (fun t => (t.pc, t.reg 1, t.reg 2, t.reg 15))
    (step (withRegs [(1, 3), (2, 4)] (start 0x8128))) = some (0x202, 3, 4, 0) := by decide
/-- V-C1. -/
theorem test_jp : after State.pc (step (start 0x1234)) = some 0x234 := by decide
/-- V-C3. -/
theorem test_call_sixteenth : after (fun t => (t.sp, t.slot 16, t.pc)) (step { start 0x2300 with sp := 15 }) =
    some (16, 0x202, 0x300) := by decide
/-- V-C4. -/
theorem test_call_overflow : recordAfter (step { start 0x2300 with sp := 16 }) =
    some (some ⟨.stackOverflow, 0x200, some 0x2300⟩, 0x200) := by decide
/-- V-C6. -/
theorem test_ret : after (fun t => (t.pc, t.sp, t.slot 2))
    (step { start 0x00EE with sp := 2, stack := (State.reset.stack.set 0 0x202).set 1 0x456 }) = some (0x456, 1, 0x456) := by decide
/-- V-C5. -/
theorem test_ret_underflow : recordAfter (step (start 0x00EE)) =
    some (some ⟨.stackUnderflow, 0x200, some 0x00EE⟩, 0x200) := by decide
/-- V-C7. -/
theorem test_jpV0 : after State.pc (step (withRegs [(0, 4)] (start 0xB300))) = some 0x304 := by decide
/-- V-C8. -/
theorem test_jpV0_not_reduced : after State.pc (step (withRegs [(0, 0xFF)] (start 0xBFFF))) = some 0x10FE := by decide
/-- The second step of V-C8. -/
theorem test_fetch_beyond : recordAfter (step { State.reset with pc := 0x10FE }) =
    some (some ⟨.memoryOutOfBounds, 0x10FE, none⟩, 0x10FE) := by decide
/-- V-C12. -/
theorem test_fetch_last_word : after (fun t => (t.reg 1, t.pc)) (step (withBytes 0xFFE [0x61, 0x07] { State.reset with pc := 0xFFE })) =
    some (7, 0x1000) := by decide
/-- V-C13. -/
theorem test_fetch_half_word : recordAfter (step { State.reset with pc := 0xFFF }) =
    some (some ⟨.memoryOutOfBounds, 0xFFF, none⟩, 0xFFF) := by decide
/-- V-C14. -/
theorem test_fetch_odd : after (fun t => (t.reg 2, t.pc)) (step (withBytes 0x201 [0x62, 0x09] { State.reset with pc := 0x201 })) =
    some (9, 0x203) := by decide
/-- V-C15. -/
theorem test_halted_no_tick : after (fun t => (t.pc, t.dt, t.halted))
    (step { (startTick 0x6005).setDt 9 with halted := true, fault := some ⟨.stackUnderflow, 0x200, some 0x00EE⟩ }) =
    some (0x200, 9, true) := by decide
/-- V-T7. -/
theorem test_tick_saturates : after (fun t => (t.dt, t.st)) (step ((startTick 0).setDt 1)) = some (0, 0) := by decide
/-- V-T8. -/
theorem test_tick_independent : after (fun t => (t.dt, t.st)) (step ((startTick 0).setSt 0xFF)) = some (0, 0xFE) := by decide
/-- V-T9. -/
theorem test_no_tick : after (fun t => (t.dt, t.st)) (step (((start 0).setDt 7).setSt 7)) = some (7, 7) := by decide

/-! ## Conditional skips -/

/-- V-S1. -/
theorem test_seImm_skips : after State.pc (step (withRegs [(3, 0x2A)] (start 0x332A))) = some 0x204 := by decide
/-- V-S2. -/
theorem test_seImm_goes_on : after State.pc (step (withRegs [(3, 0x2B)] (start 0x332A))) = some 0x202 := by decide
/-- V-S3. -/
theorem test_sneImm_goes_on : after State.pc (step (withRegs [(3, 0x2A)] (start 0x432A))) = some 0x202 := by decide
/-- V-S4. -/
theorem test_sneImm_skips : after State.pc (step (start 0x432A)) = some 0x204 := by decide
/-- V-S5. -/
theorem test_seReg_skips : after State.pc (step (withRegs [(1, 7), (2, 7)] (start 0x5120))) = some 0x204 := by decide
/-- V-S6. -/
theorem test_seReg_goes_on : after State.pc (step (withRegs [(1, 7), (2, 8)] (start 0x5120))) = some 0x202 := by decide
/-- V-S8. -/
theorem test_sneReg_skips : after State.pc (step (withRegs [(1, 7), (2, 8)] (start 0x9120))) = some 0x204 := by decide
/-- V-S10. -/
theorem test_sneReg_same_register : after State.pc (step (withRegs [(1, 9)] (start 0x9110))) = some 0x202 := by decide

/-! ## ALU -/

/-- The first step of S1. -/
theorem test_ldImm : after (fun t => (t.reg 0, t.pc)) (step (start 0x6005)) = some (5, 0x202) := by decide
/-- V-A1. -/
theorem test_addImm_no_flag : after (fun t => (t.reg 1, t.reg 15)) (step (withRegs [(1, 0xFF), (15, 7)] (start 0x7101))) =
    some (0, 7) := by decide
/-- V-A2. -/
theorem test_addImm_vf : after (fun t => t.reg 15) (step (withRegs [(15, 0xFF)] (start 0x7F01))) = some 0 := by decide
/-- V-A3. -/
theorem test_ldReg : after (fun t => t.reg 1) (step (withRegs [(2, 0x7E)] (start 0x8120))) = some 0x7E := by decide
/-- V-A4. -/
theorem test_or : after (fun t => (t.reg 1, t.reg 15)) (step (withRegs [(1, 0xF0), (2, 0x0F), (15, 7)] (start 0x8121))) =
    some (0xFF, 7) := by decide
/-- V-A5. -/
theorem test_and : after (fun t => t.reg 1) (step (withRegs [(1, 0xF0), (2, 0x3C)] (start 0x8122))) = some 0x30 := by decide
/-- V-A6. -/
theorem test_xor : after (fun t => t.reg 1) (step (withRegs [(1, 0xF0), (2, 0x3C)] (start 0x8123))) = some 0xCC := by decide
/-- V-A7. -/
theorem test_xor_self : after (fun t => (t.reg 1, t.reg 15)) (step (withRegs [(1, 0x90), (15, 7)] (start 0x8113))) =
    some (0, 7) := by decide
/-- V-A8. -/
theorem test_add_carry : after (fun t => (t.reg 1, t.reg 15)) (step (withRegs [(1, 0xFF), (2, 1)] (start 0x8124))) =
    some (0, 1) := by decide
/-- V-A35. -/
theorem test_add_into_vf : after (fun t => (t.reg 15, t.reg 1)) (step (withRegs [(15, 0xC8), (1, 0x64)] (start 0x8F14))) =
    some (0x2C, 0x64) := by decide
/-- V-A15. -/
theorem test_sub_borrow : after (fun t => (t.reg 1, t.reg 15)) (step (withRegs [(1, 5), (2, 6)] (start 0x8125))) =
    some (0xFF, 0) := by decide
/-- V-A14. -/
theorem test_sub_equal : after (fun t => (t.reg 1, t.reg 15)) (step (withRegs [(1, 5), (2, 5)] (start 0x8125))) =
    some (0, 1) := by decide
/-- V-A22. -/
theorem test_subn : after (fun t => (t.reg 1, t.reg 15)) (step (withRegs [(1, 5), (2, 6)] (start 0x8127))) = some (1, 1) := by decide
/-- V-A42. -/
theorem test_subn_into_vf : after (fun t => t.reg 15) (step (withRegs [(15, 5), (1, 6)] (start 0x8F17))) = some 1 := by decide
/-- V-A28. -/
theorem test_shr : after (fun t => (t.reg 1, t.reg 15, t.reg 2)) (step (withRegs [(1, 0xFF), (2, 0xAA)] (start 0x8126))) =
    some (0x7F, 1, 0xAA) := by decide
/-- V-A40. -/
theorem test_shr_vf : after (fun t => t.reg 15) (step (withRegs [(15, 2)] (start 0x8F06))) = some 1 := by decide
/-- V-A33. -/
theorem test_shl : after (fun t => (t.reg 1, t.reg 15, t.reg 2)) (step (withRegs [(1, 0x80), (2, 0xAA)] (start 0x812E))) =
    some (0, 1, 0xAA) := by decide
/-- V-A32. -/
theorem test_shl_no_carry : after (fun t => (t.reg 1, t.reg 15)) (step (withRegs [(1, 0x7F), (2, 0xAA)] (start 0x812E))) =
    some (0xFE, 0) := by decide

/-! ## Address register and memory -/

/-- V-M1. -/
theorem test_ldI : after State.i (step (start 0xA2F0)) = some 0x2F0 := by decide
/-- V-M4. -/
theorem test_addI_wraps : after State.i (step (withRegs [(2, 2)] ((start 0xF21E).setI 0xFFFF))) = some 1 := by decide
/-- V-M3. -/
theorem test_addI_beyond_memory : after (fun t => (t.i, t.fault, t.reg 15)) (step (withRegs [(2, 1)] ((start 0xF21E).setI 0xFFF))) =
    some (0x1000, none, 0) := by decide
/-- V-M10. -/
theorem test_ldGlyph : after State.i (step (withRegs [(4, 0xF)] (start 0xF429))) = some 0x4B := by decide
/-- V-M12. -/
theorem test_ldGlyph_fault : after (fun t => (t.i, t.fault)) (step (withRegs [(4, 0x10)] ((start 0xF429).setI 0x123))) =
    some (0x123, some ⟨.glyphIndexOutOfRange, 0x200, some 0xF429⟩) := by decide
/-- V-M5, S7. -/
theorem test_ldBcd : after (fun t => Memory.readBytes t.mem 0x300 3) (step (withRegs [(0, 235)] ((start 0xF033).setI 0x300))) =
    some [2, 3, 5] := by decide
/-- V-M8. -/
theorem test_ldBcd_fault : after (fun t => (t.fault, Memory.readBytes t.mem 0xFFE 2))
    (step (withRegs [(0, 255)] ((start 0xF033).setI 0xFFE))) =
    some (some ⟨.memoryOutOfBounds, 0x200, some 0xF033⟩, [0, 0]) := by decide
/-- V-M13. -/
theorem test_storeRegs : after (fun t => (Memory.readBytes t.mem 0x400 4, t.i))
    (step (withRegs [(0, 0x11), (1, 0x22), (2, 0x33), (3, 0x44)] ((start 0xF255).setI 0x400))) =
    some ([0x11, 0x22, 0x33, 0], 0x400) := by decide
/-- V-M16. -/
theorem test_storeRegs_last_byte : after (fun t => t.memByte 0xFFF) (step (withRegs [(0, 0x99)] ((start 0xF055).setI 0xFFF))) =
    some 0x99 := by decide
/-- V-M17. -/
theorem test_loadRegs : after (fun t => (t.reg 0, t.reg 1, t.reg 2, t.reg 3, t.i))
    (step (withBytes 0x400 [0x11, 0x22, 0x33, 0x44] (withRegs [(3, 0x77)] ((start 0xF265).setI 0x400)))) =
    some (0x11, 0x22, 0x33, 0x77, 0x400) := by decide
/-- V-M19. -/
theorem test_loadRegs_glyph : after (fun t => t.reg 0) (step (start 0xF065)) = some 0xF0 := by decide

/-! ## Random, display, keys, timers -/

/-- V-R1. -/
theorem test_rnd : after (fun t => (t.reg 1, t.reg 15)) (step (startWith ⟨0, 0xB7, false⟩ 0xC10F)) = some (7, 0) := by decide
/-- V-D16. -/
theorem test_cls : after (fun t => t.pixel 10 3) (step (withPixel 10 3 (start 0x00E0))) = some false := by decide
/-- V-D1, S6. -/
theorem test_drw_wraps : after (fun t => ((List.range 64).filter fun c => t.pixel (Fin.ofNat 64 c) 0, t.reg 15))
    (step (withBytes 0x300 [0xFF] (withRegs [(0, 60), (1, 0)] ((start 0xD011).setI 0x300)))) =
    some ([0, 1, 2, 3, 60, 61, 62, 63], 0) := by decide
/-- V-D7. -/
theorem test_drw_collides : after (fun t => (t.pixel 10 3, t.pixel 12 3, t.reg 15))
    (step (withPixel 10 3 (withPixel 12 3 (withBytes 0x300 [0xA0] (withRegs [(0, 10), (1, 3)] ((start 0xD011).setI 0x300)))))) =
    some (false, false, 1) := by decide
/-- V-K1. -/
theorem test_skp_down : after State.pc (step (withRegs [(2, 0xA)] (startWith ⟨0x0400, 0, false⟩ 0xE29E))) = some 0x204 := by decide
/-- V-K3. -/
theorem test_skp_no_such_key : after State.pc (step (withRegs [(2, 0x1A)] (startWith ⟨0xFFFF, 0, false⟩ 0xE29E))) =
    some 0x202 := by decide
/-- V-K4. -/
theorem test_sknp_down : after State.pc (step (withRegs [(2, 0xA)] (startWith ⟨0x0400, 0, false⟩ 0xE2A1))) = some 0x202 := by decide
/-- V-K6. -/
theorem test_sknp_no_such_key : after State.pc (step (withRegs [(2, 0x10)] (startWith ⟨0xFFFF, 0, false⟩ 0xE2A1))) =
    some 0x204 := by decide
/-- V-K7. -/
theorem test_ldKey_spins : after (fun t => (t.pc, t.reg 3, t.dt)) (step ((withRegs [(3, 0x55)] (startTick 0xF30A)).setDt 2)) =
    some (0x200, 0x55, 1) := by decide
/-- V-K8. -/
theorem test_ldKey_lowest : after (fun t => (t.pc, t.reg 3)) (step (withRegs [(3, 0x55)] (startWith ⟨0x0090, 0, false⟩ 0xF30A))) =
    some (0x202, 4) := by decide
/-- V-T1. -/
theorem test_ldFromDt : after (fun t => (t.reg 5, t.dt)) (step ((startTick 0xF507).setDt 0x3C)) = some (0x3C, 0x3B) := by decide
/-- V-T3. -/
theorem test_ldToDt_ticks : after State.dt (step (withRegs [(5, 0x3C)] (startTick 0xF515))) = some 0x3B := by decide
/-- V-T4. -/
theorem test_ldToDt_zero : after State.dt (step ((startTick 0xF515).setDt 9)) = some 0 := by decide
/-- V-T6. -/
theorem test_ldToSt_ticks : after State.st (step (withRegs [(5, 1)] (startTick 0xF518))) = some 0 := by decide

/-! ## Witnesses: the hypotheses of the obligations can be met, clause by clause, at the ends of their ranges -/

/-- A core halted by V-C5. -/
def haltedState : State := { start 0x00EE with halted := true, fault := some ⟨.stackUnderflow, 0x200, some 0x00EE⟩ }

/-- `n` steps' inputs with no key down. -/
def noKeys (n : Nat) : List Input := List.replicate n ⟨0, 0, true⟩

theorem witness_DecodeOfEncode : (Instr.sys 0xF 0xFFF).wf = true ∧ (Instr.drw 1 2 15).wf = true := by decide
theorem witness_DecodeConsumesTwoBytes : (Instr.ldImm 0 5).wf = true := by decide
theorem witness_UnmatchedWordsAreSys : (∀ r ∈ opcodeRows, (0x5AB1 : Word) &&& r.mask ≠ r.pat) ∧
    ¬(∀ r ∈ opcodeRows, (0x5AB0 : Word) &&& r.mask ≠ r.pat) := by decide
theorem witness_RowsAreDisjoint : ∃ r ∈ lowRows ++ highRows, (0xF365 : Word) &&& r.mask = r.pat := by decide
theorem witness_DecodeTakesTheMatchingRow : ∃ r ∈ opcodeRows, (0x00E0 : Word) &&& r.mask = r.pat := by decide
theorem witness_StepRunsTheDecodedInstruction : (start 0x6005).halted = false ∧ (start 0x6005).pc.toNat + 1 < config.memSize ∧
    decodeWord ((start 0x6005).memByte (start 0x6005).pc.toNat ++ (start 0x6005).memByte ((start 0x6005).pc.toNat + 1)) =
      .ldImm 0 5 ∧ after (fun t => t.reg 0) (exec (.ldImm 0 5) (start 0x6005)) = some 5 := by decide
/-- The same with an instruction that faults. -/
theorem witness_StepRunsTheDecodedInstruction_fault : wordAtPc (start 0x00EE) = 0x00EE ∧
    after State.halted (exec .ret (start 0x00EE)) = some true := by decide
theorem witness_FetchIsBigEndian : State.reset.pc.toNat + 1 < config.memSize ∧
    ([0x60, 0x05] : List Byte).length ≤ config.memSize - config.loadAddr ∧ 0 + 1 < ([0x60, 0x05] : List Byte).length := by decide
theorem witness_HaltedIsPermanent : haltedState.halted = true := by decide
theorem witness_FetchPastMemoryFaults : ({ State.reset with pc := 0xFFF } : State).halted = false ∧
    config.memSize ≤ ({ State.reset with pc := 0xFFF } : State).pc.toNat + 1 ∧
    ¬ config.memSize ≤ ({ State.reset with pc := 0xFFE } : State).pc.toNat + 1 := by decide
/-- Fetch fault, instruction fault, no fault. -/
theorem witness_StepFaultsExactlyWhen : (start 0x00EE).halted = false ∧
    stepFault { State.reset with pc := 0xFFF } = some (.memoryOutOfBounds, none) ∧
    stepFault (start 0x00EE) = some (.stackUnderflow, some 0x00EE) ∧ stepFault (start 0x6005) = none := by decide
theorem witness_PcAfterEveryStep : stepFault (start 0x1234) = none ∧ pcAfter (decodeWord (wordAtPc (start 0x1234))) (start 0x1234) = 0x234 ∧
    stepFault (start 0x00EE) ≠ none := by decide
theorem witness_TimersTickAfterTheInstruction : (startTick 0xF515).halted = false ∧ stepFault (startTick 0xF515) = none ∧
    after State.dt (exec (decodeWord (wordAtPc (startTick 0xF515))) (withRegs [(5, 5)] (startTick 0xF515))) = some 5 ∧
    after State.dt (step (withRegs [(5, 5)] (startTick 0xF515))) = some 4 := by decide
/-- `SKP` with inputs that differ in `rnd` and `tick`, `RND` with inputs that differ in `keys` and `tick`, `SYS` with any. -/
theorem witness_UnreadInputsDoNotMatter : readsKeys (.skp 2) = true ∧ readsRnd (.skp 2) = false ∧
    readsKeys (.rnd 1 0xFF) = false ∧ readsRnd (.rnd 1 0xFF) = true ∧ readsKeys (.sys 0 0) = false ∧ readsRnd (.sys 0 0) = false ∧
    after State.pc (exec (.skp 2) { State.reset with inputs := [⟨1, 0xB7, true⟩] }) = some 0x204 := by decide
/-- Each of the seven faulting instructions at both sides of its condition. -/
theorem witness_EveryInstructionCompletesWithItsFrame :
    faultOf (.call 0x300) { State.reset with sp := 16 } = some .stackOverflow ∧
    faultOf (.call 0x300) { State.reset with sp := 15 } = none ∧
    faultOf .ret State.reset = some .stackUnderflow ∧ faultOf .ret { State.reset with sp := 1 } = none ∧
    faultOf (.ldGlyph 4) (State.reset.setReg 4 16) = some .glyphIndexOutOfRange ∧
    faultOf (.ldGlyph 4) (State.reset.setReg 4 15) = none ∧
    faultOf (.ldBcd 0) (State.reset.setI 0xFFE) = some .memoryOutOfBounds ∧ faultOf (.ldBcd 0) (State.reset.setI 0xFFD) = none ∧
    faultOf (.storeRegs 15) (State.reset.setI 0xFF1) = some .memoryOutOfBounds ∧
    faultOf (.storeRegs 15) (State.reset.setI 0xFF0) = none ∧
    faultOf (.loadRegs 1) (State.reset.setI 0xFFF) = some .memoryOutOfBounds ∧
    faultOf (.loadRegs 0) (State.reset.setI 0xFFF) = none ∧
    faultOf (.drw 0 1 2) (State.reset.setI 0xFFF) = some .memoryOutOfBounds ∧
    faultOf (.drw 0 1 0) (State.reset.setI 0xFFFF) = none := by decide
theorem witness_RegistersWrittenOnlyAsNamed : mayWriteReg 15 (.addImm 1 1) = false ∧ mayWriteReg 3 (.loadRegs 2) = false ∧
    mayWriteReg 2 (.addReg 1 2) = false ∧ after (fun t => t.reg 15) (exec (.addImm 1 1) State.reset) = some 0 := by decide
theorem witness_JpSetsPc : (start 0x1FFF).halted = false ∧ decodeWord (wordAtPc (start 0x1FFF)) = .jp 0xFFF ∧
    State.reset.pc.toNat = (0x200 : Addr).toNat := by decide
theorem witness_CallPushesAndJumps : ({ State.reset with sp := 15 } : State).sp.val < 16 ∧
    ({ State.reset with sp := 16 } : State).sp.val = 16 := by decide
theorem witness_RetPopsIntoPc : 0 < ({ State.reset with sp := 1 } : State).sp.val ∧ State.reset.sp.val = 0 := by decide
theorem witness_SkipsOnRegister : (1 : Nibble) ≠ 0 ∧ (15 : Nibble) ≠ 0 := by decide
theorem witness_destinations : (2 : Nibble) ≠ 1 ∧ (2 : Nibble) ≠ 15 ∧ (1 : Nibble) ≠ 15 := by decide
theorem witness_LoadGlyphAddress : ((State.reset.setReg 4 15).reg 4).toNat ≤ 15 ∧
    15 < ((State.reset.setReg 4 16).reg 4).toNat := by decide
theorem witness_StoreDecimalDigits : Memory.wf (State.reset.setI 0xFFD).mem = true ∧
    (State.reset.setI 0xFFD).i.toNat + 2 < config.memSize ∧ config.memSize ≤ (State.reset.setI 0xFFE).i.toNat + 2 := by decide
theorem witness_StoreRegistersToMemory : Memory.wf (State.reset.setI 0xFF0).mem = true ∧
    (State.reset.setI 0xFF0).i.toNat + (15 : Nibble).toNat < config.memSize ∧
    config.memSize ≤ (State.reset.setI 0xFF1).i.toNat + (15 : Nibble).toNat := by decide
theorem witness_LoadRegistersFromMemory : (State.reset.setI 0xFFF).i.toNat + (0 : Nibble).toNat < config.memSize ∧
    config.memSize ≤ (State.reset.setI 0xFFF).i.toNat + (1 : Nibble).toNat := by decide
/-- The last byte stored as the low half of a word, and the first as the high half, for both instructions. -/
theorem witness_StoredBytesAreFetched : Memory.wf (State.reset.setI 0x300).mem = true ∧ (0x300 : Word).toNat + 1 < config.memSize ∧
    (State.reset.setI 0x300).i.toNat + (15 : Nibble).toNat < config.memSize ∧
    (State.reset.setI 0x300).i.toNat + 2 < config.memSize ∧
    (0x300 : Word).toNat = (State.reset.setI 0x300).i.toNat + (0 : Nibble).toNat ∧
    (0x30E : Word).toNat + 1 = (State.reset.setI 0x300).i.toNat + (15 : Nibble).toNat ∧
    (0x301 : Word).toNat + 1 = (State.reset.setI 0x300).i.toNat + 2 := by decide
/-- V-M6 (99) as a fetch sees it: the digits 0, 9, 9. -/
theorem test_ldBcd_then_fetch : after (fun t => (State.fetch { t with pc := 0x300 }, State.fetch { t with pc := 0x301 }))
    (exec (.ldBcd 0) (withRegs [(0, 99)] (State.reset.setI 0x300))) = some (some 0x0009, some 0x0909) := by decide
theorem witness_RandomByteIsMasked : (0xB7 &&& 0x0F : Byte) = 0x07 ∧ (7 : Nat) < 8 := by decide
/-- `n = 0` at any `I`; the highest `I` that is in range for one row; the same `I` with two rows. -/
theorem witness_DrawSpriteXorsPixels : (0 : Nibble).toNat = 0 ∧
    (State.reset.setI 0xFFF).i.toNat + (1 : Nibble).toNat ≤ config.memSize ∧ 0 < (2 : Nibble).toNat ∧
    config.memSize < (State.reset.setI 0xFFF).i.toNat + (2 : Nibble).toNat ∧
    (3 : Fin 64).val = ((60 : Byte).toNat + 7) % 64 ∧ (0 : Fin 32).val = ((0 : Byte).toNat + 0) % 32 := by decide
/-- A pixel no column of the one-row sprite at (60, 0) lands on. -/
theorem witness_DrawSpriteXorsPixels_other : ∀ col, col < 8 → ¬((4 : Fin 64).val = ((60 : Byte).toNat + col) % 64) := by decide
/-- The start of a draw of glyph 0 at (0, 0). -/
def glyphZeroState : State := { State.reset with inputs := [⟨0, 0, false⟩] }
/-- Two draws of glyph 0 at (0, 0): neither faults, the first leaves the coordinates and lights pixels that were 0. -/
theorem witness_DoubleDrawRestoresTheScreen : glyphZeroState.halted = false ∧
    after (fun t => (t.halted, t.reg 0, t.reg 1, t.pixel 0 0)) (exec (.drw 0 1 5) glyphZeroState) =
      some (false, glyphZeroState.reg 0, glyphZeroState.reg 1, true) ∧
    (match exec (.drw 0 1 5) glyphZeroState with
     | .next t => after (fun u => (u.pixel 0 0, u.reg 15)) (exec (.drw 0 1 5) t)
     | _ => none) = some (false, 1) := by decide
theorem witness_KeyWaitSpinsOrStores : (start 0xF30A).input.keys = 0 ∧
    (startWith ⟨0x8000, 0, false⟩ 0xF30A).input.keys.getLsbD 15 = true ∧
    (∀ j < 15, (startWith ⟨0x8000, 0, false⟩ 0xF30A).input.keys.getLsbD j = false) ∧
    (startWith ⟨0x0001, 0, false⟩ 0xF30A).input.keys.getLsbD 0 = true := by decide
theorem witness_KeyWaitSpinsWhileNoKeyIsDown : (start 0xF30A).halted = false ∧ (start 0xF30A).pc.toNat + 1 < config.memSize ∧
    decodeWord (wordAtPc { start 0xF30A with inputs := noKeys 3 }) = .ldKey 3 ∧
    2 ≤ ({ start 0xF30A with inputs := noKeys 3 } : State).inputs.length ∧
    (∀ inp ∈ ({ start 0xF30A with inputs := noKeys 3 } : State).inputs.take 2, inp.keys = 0) := by decide
theorem witness_TimerInstructions : (startTick 0xF507).halted = false ∧ (startTick 0xF507).pc.toNat + 1 < config.memSize ∧
    wordAtPc (startTick 0xF507) = 0xF#4 ++ 5#4 ++ 0x07#8 ∧ wordAtPc (startTick 0xF515) = 0xF#4 ++ 5#4 ++ 0x15#8 ∧
    wordAtPc (startTick 0xF518) = 0xF#4 ++ 5#4 ++ 0x18#8 := by decide
theorem witness_LaunchLoadsTheImage : (List.replicate 3584 (0 : Byte)).length ≤ 3584 ∧
    3584 < (List.replicate 3585 (0 : Byte)).length :=
  ⟨Nat.le_of_eq List.length_replicate, Nat.lt_of_lt_of_eq (Nat.lt_succ_self 3584) List.length_replicate.symm⟩
theorem witness_PlacedWordRunsNext : Memory.wf haltedState.mem = true ∧
    after (fun t => (t.reg 0, t.pc)) (step ({ State.reset with pc := 0xFFF, inputs := [⟨0, 0, false⟩] }.withFetchWord 16 0x6005)) =
      some (5, 0x202) := by decide
theorem witness_SelfJumpOnlyCountsTimers : atSelfJump (start 0x1200) = true ∧ atSelfJump (start 0x1202) = false := by decide
theorem witness_StepKeepsInvariant : Machine.Inv (start 0x6005) ∧ after (fun t => t.reg 0) (step (start 0x6005)) = some 5 := by decide
/-- No return address is live after reset, whatever slot is asked for. -/
theorem reset_slot_small (k : Nat) : (State.reset.slot k).toNat ≤ config.memSize := by
  by_cases h : k < 17
  · exact (by decide : ∀ k < 17, (State.reset.slot k).toNat ≤ config.memSize) k h
  · have : State.reset.slot k = 0 := by
      rw [State.slot, if_neg (by omega), List.getD_eq_default _ _ (by rw [Vector.length_toList]; omega)]
    rw [this]; decide
theorem witness_StepKeepsPcBound : PcInRange State.reset ∧ after State.pc (step (start 0x1234)) = some 0x234 :=
  ⟨⟨by decide, reset_slot_small⟩, by decide⟩
/-- Slot 2 is dead when one return address is live; the `RET` that follows reads slot 1, the same in both stacks. -/
theorem witness_DeadSlotsAreNeverRead :
    (∀ k ≤ ({ start 0x00EE with sp := 1 } : State).sp.val,
      State.slot { ({ start 0x00EE with sp := 1 } : State) with stack := State.reset.stack.set 1 0x456 } k =
        State.slot { start 0x00EE with sp := 1 } k) ∧
    State.slot { ({ start 0x00EE with sp := 1 } : State) with stack := State.reset.stack.set 1 0x456 } 2 ≠
      State.slot { start 0x00EE with sp := 1 } 2 ∧
    after State.sp (step { start 0x00EE with sp := 1 }) = some 0 := by decide
end

section
/-! PROOFS. The fetch and the loaded image (20_memory.md, R53; the launch of R216, R218). -/

namespace Sys2Proof.Machine

/-! ## The fetch where two bytes lie at `pc` -/

theorem State.fetch_of_inMemory {s : State} (h : s.pc.toNat + 1 < config.memSize) : s.fetch = some (wordAtPc s) := by
  rcases s.fetch_cases with ⟨-, e⟩ | ⟨hout, -⟩
  · exact e
  · exact absurd h (Nat.not_lt.mpr hout)

/-! ## The launch -/

/-- The state a launch answers for an image that fits (R216). -/
def launched (image : List Byte) : State :=
  { State.reset with mem := Memory.writeBytes State.reset.mem config.loadAddr image }

theorem launch_of_fits {image : List Byte} (h : image.length ≤ config.memSize - config.loadAddr) :
    launch image = .next (launched image) := if_pos h

/-- A launched image lies at the load address on, and every other byte is its reset byte. -/
theorem memByte_launched {image : List Byte} (h : image.length ≤ config.memSize - config.loadAddr) (a : Nat) :
    (launched image).memByte a =
      if config.loadAddr ≤ a ∧ a < config.loadAddr + image.length then image.getD (a - config.loadAddr) 0
      else State.reset.memByte a := by
  have hfit : config.loadAddr + image.length ≤ config.memSize := by
    simp only [config_memSize, config_loadAddr] at h ⊢; omega
  exact Memory.read_writeBytes config.loadAddr a image Memory.wf_nil hfit

theorem memByte_launched_image {image : List Byte} (h : image.length ≤ config.memSize - config.loadAddr) {k : Nat}
    (hk : k < image.length) : (launched image).memByte (config.loadAddr + k) = image.getD k 0 := by
  rw [memByte_launched h, if_pos (by omega), Nat.add_sub_cancel_left]

/-- Settles O10: a fetch inside memory reads the word at `pc`, and the two bytes there after a launch are the image's. -/
theorem fetchIsBigEndian : Obligations.FetchIsBigEndian := by
  refine ⟨fun s h => State.fetch_of_inMemory h, fun image hlen => ⟨launched image, launch_of_fits hlen, fun k hk => ?_⟩⟩
  have hbound : config.loadAddr + k + 1 < config.memSize := by
    simp only [config_memSize, config_loadAddr] at hlen ⊢; omega
  have hpc : (BitVec.ofNat 16 (config.loadAddr + k)).toNat = config.loadAddr + k := by
    rw [BitVec.toNat_ofNat, Nat.mod_eq_of_lt]
    simp only [config_memSize] at hbound; omega
  rw [State.fetch_of_inMemory (by rw [hpc]; exact hbound)]
  congr 1
  calc wordAtPc { launched image with pc := BitVec.ofNat 16 (config.loadAddr + k) }
      = (launched image).memByte (config.loadAddr + k) ++ (launched image).memByte (config.loadAddr + (k + 1)) := by
        rw [wordAtPc, hpc]; rfl
    _ = image.getD k 0 ++ image.getD (k + 1) 0 := by
        rw [memByte_launched_image hlen (by omega), memByte_launched_image hlen hk]

end Sys2Proof.Machine
end

section
/-! PROOFS. The decode procedure R77: what it can answer, and when it falls back to `SYS` (30_encoding.md, R70). -/

namespace Sys2Proof

/-! ## The opcode map -/

theorem Row.hits_iff (r : Row) (w : Word) : r.hits w = true ↔ w &&& r.mask = r.pat := beq_iff_eq

/-- `SYS` has no row of its own: none of the 34 rows of R76 builds it, from any word. -/
theorem build_ne_sys (w : Word) (op : Nibble) (nnn : Addr) : ∀ r ∈ opcodeRows, r.build w ≠ .sys op nnn := by
  have hfixed : ∀ r ∈ fixedRows, r.build w ≠ .sys op nnn := by simp [fixedRows]
  have hlow : ∀ r ∈ lowRows, r.build w ≠ .sys op nnn := by simp [lowRows]
  have hhigh : ∀ r ∈ highRows, r.build w ≠ .sys op nnn := by simp [highRows]
  exact List.forall_mem_append.mpr ⟨hfixed, List.forall_mem_append.mpr ⟨hlow, hhigh⟩⟩

/-! ## The decoder -/

/-- Everything decoding can answer (R77): the instruction of a matching row, or `SYS` for a word that no row matches. -/
theorem decodeWord_cases (w : Word) :
    (∃ r ∈ opcodeRows, w &&& r.mask = r.pat ∧ decodeWord w = r.build w) ∨
    ((∀ r ∈ opcodeRows, w &&& r.mask ≠ r.pat) ∧ decodeWord w = .sys (fieldOp w) (fieldNNN w)) := by
  rw [decodeWord]
  cases hfind : opcodeRows.find? (fun r => r.hits w) with
  | some r =>
    have hhit : r.hits w = true := List.find?_some (p := fun r : Row => r.hits w) hfind
    exact .inl ⟨r, List.mem_of_find?_eq_some hfind, (r.hits_iff w).mp hhit, rfl⟩
  | none =>
    exact .inr ⟨fun r hr hmatch => List.find?_eq_none.mp hfind r hr ((r.hits_iff w).mpr hmatch), rfl⟩

/-- Settles O6: `SYS` is what the decoder answers when no row matches, and a row that matches never builds it. -/
theorem unmatchedWordsAreSys : Obligations.UnmatchedWordsAreSys := by
  intro w
  rcases decodeWord_cases w with ⟨r, hr, hmatch, hdec⟩ | ⟨hnone, hdec⟩
  · constructor
    · intro hnone
      exact absurd hmatch (hnone r hr)
    · rintro ⟨op, hsys⟩
      exact absurd (hdec.symm.trans hsys) (build_ne_sys w op _ r hr)
  · exact ⟨fun _ => ⟨fieldOp w, hdec⟩, fun _ => hnone⟩

end Sys2Proof
end

section
/-! PROOFS. The rows of the opcode map by leading nibble (30_encoding.md, R76, R77). -/

namespace Sys2Proof

/-- Every row of R76 looks at the whole leading nibble. -/
theorem fieldOp_mask_of_mem : ∀ r ∈ opcodeRows, fieldOp r.mask = 0xF#4 := by decide

theorem fieldOp_and (w m : Word) : fieldOp (w &&& m) = fieldOp w &&& fieldOp m := BitVec.extractLsb'_and

/-- A word matches only rows of its own leading nibble. -/
theorem fieldOp_pat_of_matches {r : Row} (hr : r ∈ opcodeRows) {w : Word} (h : w &&& r.mask = r.pat) :
    fieldOp r.pat = fieldOp w := by
  rw [← h, fieldOp_and, fieldOp_mask_of_mem r hr]
  exact BitVec.and_allOnes

/-- When a row hits a word and every row of the word's leading nibble builds `i` from it, the word decodes to `i`. -/
theorem decodeWord_of_leadingNibble {o : Nibble} {a : Addr} {i : Instr}
    (hfits : ∃ r ∈ opcodeRows, r.hits (o ++ a) = true ∧ r.build (o ++ a) = i)
    (hbuild : ∀ r ∈ opcodeRows, fieldOp r.pat = o → r.build (o ++ a) = i) : decodeWord (o ++ a) = i := by
  rcases decodeWord_cases (o ++ a) with ⟨r, hr, hmatch, hdec⟩ | ⟨hnone, -⟩
  · have hop : fieldOp r.pat = o := (fieldOp_pat_of_matches hr hmatch).trans (fieldOp_nnn o a)
    exact hdec.trans (hbuild r hr hop)
  · obtain ⟨r, hr, hhit, -⟩ := hfits
    exact absurd ((r.hits_iff _).mp hhit) (hnone r hr)

/-- Only the row of `JP` has leading nibble 1. -/
theorem decodeWord_jp (nnn : Addr) : decodeWord (0x1#4 ++ nnn) = .jp nnn :=
  decodeWord_of_leadingNibble (Laws.EncodeFits.jp nnn)
    (by simp [opcodeRows, fixedRows, lowRows, highRows, fieldOp, fieldNNN_nnn])

/-- Only the row of `CALL` has leading nibble 2. -/
theorem decodeWord_call (nnn : Addr) : decodeWord (0x2#4 ++ nnn) = .call nnn :=
  decodeWord_of_leadingNibble (Laws.EncodeFits.call nnn)
    (by simp [opcodeRows, fixedRows, lowRows, highRows, fieldOp, fieldNNN_nnn])

theorem decodeWord_ret : decodeWord 0x00EE = .ret := rfl

end Sys2Proof
end

section
/-! PROOFS. Control transfer (41_control_transfer.md): `JP`, `CALL`, `RET` (R101 to R103). -/

namespace Sys2Proof.Machine

/-! ## Frames and faults -/

theorem KeepsAllBut.refl (ps : List Part) (s : State) : KeepsAllBut ps s s := by
  apply KeepsAllBut.of_fields <;> simp

theorem State.setPc_keepsAllBut (s : State) (w : Word) : KeepsAllBut [.pc] s (s.setPc w) := by
  apply KeepsAllBut.of_fields <;> simp

theorem State.takeFault_keepsAllBut (s : State) (kind : Fault) (opcode : Option Word) :
    KeepsAllBut [.status] s (s.takeFault kind opcode) := by
  apply KeepsAllBut.of_fields <;> simp

/-- An instruction that answers `raise kind` raises `kind` in the sense of R11. -/
theorem raises_of_exec {kind : Fault} {i : Instr} {s : State} (h : exec i s = raise kind i s) : Raises kind i s :=
  ⟨s.takeFault kind (some (encode i)), h, rfl, rfl, s.takeFault_keepsAllBut kind _⟩

/-! ## Past the end of memory -/

theorem State.fetch_of_pastMemory {s : State} (h : config.memSize ≤ s.pc.toNat + 1) : s.fetch = none := by
  rcases s.fetch_cases with ⟨hin, -⟩ | ⟨-, e⟩
  · exact absurd h (Nat.not_le.mpr hin)
  · exact e

theorem step_of_pastMemory {s : State} (hrun : s.halted = false) (h : config.memSize ≤ s.pc.toNat + 1) :
    step s = .next (s.takeFault .memoryOutOfBounds none) := by
  rcases step_cases s with ⟨hhalt, -⟩ | ⟨-, -, e⟩ | ⟨-, hin, -⟩
  · exact absurd (hrun.symm.trans hhalt) Bool.false_ne_true
  · exact e
  · exact absurd h (Nat.not_le.mpr hin)

/-! ## JP -/

theorem exec_jp (nnn : Addr) (s : State) : exec (.jp nnn) s = .next (s.setPc (addrOperand nnn)) := rfl

/-- Settles O20: `JP` is one write of `pc`; the last address leaves no room for the next fetch. -/
theorem jpSetsPc : Obligations.JpSetsPc := by
  refine fun nnn s => ⟨decodeWord_jp nnn, s.setPc (addrOperand nnn), exec_jp nnn s, toNat_addrOperand nnn,
    s.setPc_keepsAllBut _, ?_, ?_⟩
  · rintro rfl
    have hpast : config.memSize ≤ (s.setPc (addrOperand 0xFFF)).pc.toNat + 1 := by
      rw [State.setPc_pc, toNat_addrOperand]; decide
    exact ⟨State.fetch_of_pastMemory hpast, fun hrun => ⟨_, step_of_pastMemory hrun hpast, rfl, rfl⟩⟩
  · intro hself
    have hpc : addrOperand nnn = s.pc := BitVec.eq_of_toNat_eq ((toNat_addrOperand nnn).trans hself.symm)
    rw [hpc]
    exact KeepsAllBut.refl [] s

/-! ## CALL and RET -/

/-- What a completed `CALL` or `RET` may change: `pc`, the depth and the slots. -/
theorem keepsAllBut_pc_stack (s : State) (pc : Word) (sp : Fin 17) (stack : Vector Word 16) :
    KeepsAllBut [.pc, .stack] s { s with pc := pc, sp := sp, stack := stack } := by
  apply KeepsAllBut.of_fields <;> simp

/-- Settles O21: the case of `execCall_cases` the depth selects. -/
theorem callPushesAndJumps : Obligations.CallPushesAndJumps := by
  refine fun nnn s => ⟨decodeWord_call nnn, ?_⟩
  rcases execCall_cases nnn s with ⟨hfree, hexec⟩ | ⟨hfull, hexec⟩
  · exact ⟨fun _ => ⟨_, hexec, rfl, fun k => s.slot_set s.sp.val k (s.pc + 2) hfree _ rfl, toNat_addrOperand nnn,
      keepsAllBut_pc_stack s _ _ _⟩, fun h => by omega⟩
  · exact ⟨fun h => by omega, fun _ => raises_of_exec hexec⟩

/-- Settles O22: the case of `execRet_cases` the depth selects; no slot is written. -/
theorem retPopsIntoPc : Obligations.RetPopsIntoPc := by
  refine fun s => ⟨decodeWord_ret, ?_⟩
  rcases execRet_cases s with ⟨hlive, hlt, hexec⟩ | ⟨hempty, hexec⟩
  · exact ⟨fun _ => ⟨_, hexec, Nat.sub_add_cancel hlive, rfl, fun _ => rfl, keepsAllBut_pc_stack s _ _ _⟩,
      fun h => by omega⟩
  · exact ⟨fun h => by omega, fun _ => raises_of_exec hexec⟩

end Sys2Proof.Machine
end

section
/-! PROOFS. Words by their fields: the decoder on the formats XKK and XYN (30_encoding.md, R10, R76, R77). -/

namespace Sys2Proof

theorem fieldOp_xyn (o x y n : Nibble) : fieldOp (o ++ x ++ y ++ n) = o := by
  rw [xyn_eq_xkk]; exact fieldOp_xkk o x (y ++ n)

/-- A word of format XYN is a word of format NNN. -/
theorem xyn_eq_nnn (o x y n : Nibble) : (o ++ x ++ y ++ n : Word) = (o ++ (x ++ y ++ n : Addr) : Word) := by
  have hassoc : (x ++ (y ++ n : Byte) : Addr) = (x ++ y ++ n : Addr) :=
    BitVec.eq_of_toNat_eq (congrArg BitVec.toNat (BitVec.append_assoc (x₁ := x) (x₂ := y) (x₃ := n))).symm
  rw [xyn_eq_xkk, xkk_eq_nnn, hassoc]

theorem fieldNNN_xyn (o x y n : Nibble) : fieldNNN (o ++ x ++ y ++ n) = x ++ y ++ n := by
  rw [xyn_eq_nnn, fieldNNN_nnn]

/-- `decodeWord_of_leadingNibble` for a word of any format. -/
theorem decodeWord_of_fieldOp {w : Word} {o : Nibble} {i : Instr} (hop : fieldOp w = o)
    (hfits : ∃ r ∈ opcodeRows, r.hits w = true ∧ r.build w = i)
    (hbuild : ∀ r ∈ opcodeRows, fieldOp r.pat = o → r.build w = i) : decodeWord w = i := by
  obtain ⟨a, rfl⟩ : ∃ a : Addr, w = o ++ a := ⟨fieldNNN w, hop ▸ word_eq_nnn w⟩
  exact decodeWord_of_leadingNibble hfits hbuild

/-- A word is `SYS` when every row of its leading nibble looks at the last nibble, and at another value of it than the word's. -/
theorem decodeWord_sys_of_lastNibble {o n : Nibble}
    (hrows : ∀ r ∈ opcodeRows, fieldOp r.pat = o → r.mask = 0xF00F#16 ∧ fieldN r.pat ≠ n) (x y : Nibble) :
    decodeWord (o ++ x ++ y ++ n) = .sys o (x ++ y ++ n) := by
  rcases decodeWord_cases (o ++ x ++ y ++ n) with ⟨r, hr, hmatch, -⟩ | ⟨-, hsys⟩
  · have hop : fieldOp r.pat = o := (fieldOp_pat_of_matches hr hmatch).trans (fieldOp_xyn o x y n)
    obtain ⟨hmask, hne⟩ := hrows r hr hop
    have hn : fieldN r.pat = n := by rw [← hmatch, hmask, mask_F00F, fieldN_xyn]
    exact absurd hn hne
  · rw [hsys, fieldOp_xyn, fieldNNN_xyn]

end Sys2Proof
end

section
/-! PROOFS. Conditional skips on registers and immediates (42_conditional_skip.md, R110 to R113). -/

namespace Sys2Proof

/-! ## The words -/

/-- Only the row of `SE Vx, kk` has leading nibble 3. -/
theorem decodeWord_seImm (x : Nibble) (kk : Byte) : decodeWord (0x3#4 ++ x ++ kk) = .seImm x kk :=
  decodeWord_of_fieldOp (fieldOp_xkk _ x kk) (Laws.EncodeFits.seImm x kk)
    (by simp [opcodeRows, fixedRows, lowRows, highRows, fieldOp, fieldX_xkk, fieldKK_xkk])

/-- Only the row of `SNE Vx, kk` has leading nibble 4. -/
theorem decodeWord_sneImm (x : Nibble) (kk : Byte) : decodeWord (0x4#4 ++ x ++ kk) = .sneImm x kk :=
  decodeWord_of_fieldOp (fieldOp_xkk _ x kk) (Laws.EncodeFits.sneImm x kk)
    (by simp [opcodeRows, fixedRows, lowRows, highRows, fieldOp, fieldX_xkk, fieldKK_xkk])

/-- Only the row of `SE Vx, Vy` has leading nibble 5. -/
theorem decodeWord_seReg (x y : Nibble) : decodeWord (0x5#4 ++ x ++ y ++ 0x0#4) = .seReg x y :=
  decodeWord_of_fieldOp (fieldOp_xyn _ x y _) (Laws.EncodeFits.seReg x y)
    (by simp [opcodeRows, fixedRows, lowRows, highRows, fieldOp, fieldX_xyn, fieldY_xyn])

/-- Only the row of `SNE Vx, Vy` has leading nibble 9. -/
theorem decodeWord_sneReg (x y : Nibble) : decodeWord (0x9#4 ++ x ++ y ++ 0x0#4) = .sneReg x y :=
  decodeWord_of_fieldOp (fieldOp_xyn _ x y _) (Laws.EncodeFits.sneReg x y)
    (by simp [opcodeRows, fixedRows, lowRows, highRows, fieldOp, fieldX_xyn, fieldY_xyn])

/-- The rows of leading nibbles 5 and 9 ask for the last nibble 0. -/
theorem lastNibble_of_skipRows : ∀ r ∈ opcodeRows, fieldOp r.pat = 0x5#4 ∨ fieldOp r.pat = 0x9#4 →
    r.mask = 0xF00F#16 ∧ fieldN r.pat = 0 := by decide

theorem decodeWord_sys_of_skipNibble {o n : Nibble} (ho : o = 0x5#4 ∨ o = 0x9#4) (hn : n ≠ 0) (x y : Nibble) :
    decodeWord (o ++ x ++ y ++ n) = .sys o (x ++ y ++ n) := by
  refine decodeWord_sys_of_lastNibble (fun r hr hop => ?_) x y
  obtain ⟨hmask, hzero⟩ := lastNibble_of_skipRows r hr (hop ▸ ho)
  exact ⟨hmask, hzero ▸ hn.symm⟩

end Sys2Proof

namespace Sys2Proof.Machine

/-! ## The effect of a skip -/

/-- The skip comes after the advance of the step (R92), so a skip taken moves `pc` by 4. -/
theorem State.advance_skipIf_pc (c : Bool) (s : State) :
    (s.advance.skipIf c).pc = if c then s.pc + 4 else s.pc + 2 := by
  cases c with
  | true => exact BitVec.add_assoc s.pc 2 2
  | false => rfl

theorem State.advance_skipIf_keepsAllBut (c : Bool) (s : State) : KeepsAllBut [.pc] s (s.advance.skipIf c) := by
  apply KeepsAllBut.of_fields <;> simp

/-- An instruction that advances and then skips when `p` holds. -/
theorem skipsWhen_of_exec {i : Instr} {s : State} {c : Bool} {p : Prop} [Decidable p] (hc : c = true ↔ p)
    (h : exec i s = .next (s.advance.skipIf c)) :
    ∃ t, exec i s = .next t ∧ t.pc = (if p then s.pc + 4 else s.pc + 2) ∧ KeepsAllBut [.pc] s t := by
  refine ⟨_, h, ?_, s.advance_skipIf_keepsAllBut c⟩
  simp only [State.advance_skipIf_pc, hc]

/-- An instruction that advances and then skips unless `p` holds. -/
theorem skipsUnless_of_exec {i : Instr} {s : State} {c : Bool} {p : Prop} [Decidable p] (hc : c = true ↔ ¬p)
    (h : exec i s = .next (s.advance.skipIf c)) :
    ∃ t, exec i s = .next t ∧ t.pc = (if p then s.pc + 2 else s.pc + 4) ∧ KeepsAllBut [.pc] s t := by
  rw [← ite_not]
  exact skipsWhen_of_exec hc h

/-! ## The instructions -/

theorem exec_seImm (x : Nibble) (kk : Byte) (s : State) :
    exec (.seImm x kk) s = .next (s.advance.skipIf (s.reg x == kk)) := rfl

theorem exec_sneImm (x : Nibble) (kk : Byte) (s : State) :
    exec (.sneImm x kk) s = .next (s.advance.skipIf (s.reg x != kk)) := rfl

theorem exec_seReg (x y : Nibble) (s : State) :
    exec (.seReg x y) s = .next (s.advance.skipIf (s.reg x == s.reg y)) := rfl

theorem exec_sneReg (x y : Nibble) (s : State) :
    exec (.sneReg x y) s = .next (s.advance.skipIf (s.reg x != s.reg y)) := rfl

/-- Settles O24: both are an advance and a skip, on the register equal to the immediate and on it different. -/
theorem skipsOnImmediate : Obligations.SkipsOnImmediate := fun x kk s =>
  ⟨⟨decodeWord_seImm x kk, skipsWhen_of_exec beq_iff_eq (exec_seImm x kk s)⟩,
    decodeWord_sneImm x kk, skipsUnless_of_exec bne_iff_ne (exec_sneImm x kk s)⟩

/-- Settles O25: both are an advance and a skip; with another last nibble no row of the leading nibble matches. -/
theorem skipsOnRegister : Obligations.SkipsOnRegister := fun x y s =>
  ⟨⟨decodeWord_seReg x y, skipsWhen_of_exec beq_iff_eq (exec_seReg x y s)⟩,
    fun _ hn => ⟨0x5#4, decodeWord_sys_of_skipNibble (.inl rfl) hn x y⟩,
    ⟨decodeWord_sneReg x y, skipsUnless_of_exec bne_iff_ne (exec_sneReg x y s)⟩,
    fun _ hn => ⟨0x9#4, decodeWord_sys_of_skipNibble (.inr rfl) hn x y⟩⟩

end Sys2Proof.Machine
end

section
/-! PROOFS. Register load and the 8-bit ALU without a flag (43_alu.md): `LD Vx, kk`, `ADD Vx, kk`, `OR`, `AND`, `XOR` (R122, R123,
R125 to R127). -/

namespace Sys2Proof

/-! ## The words -/

/-- Only the row of `LD Vx, kk` has leading nibble 6. -/
theorem decodeWord_ldImm (x : Nibble) (kk : Byte) : decodeWord (0x6#4 ++ x ++ kk) = .ldImm x kk :=
  decodeWord_of_fieldOp (fieldOp_xkk _ x kk) (Laws.EncodeFits.ldImm x kk)
    (by simp [opcodeRows, fixedRows, lowRows, highRows, fieldOp, fieldX_xkk, fieldKK_xkk])

/-- Only the row of `ADD Vx, kk` has leading nibble 7. -/
theorem decodeWord_addImm (x : Nibble) (kk : Byte) : decodeWord (0x7#4 ++ x ++ kk) = .addImm x kk :=
  decodeWord_of_fieldOp (fieldOp_xkk _ x kk) (Laws.EncodeFits.addImm x kk)
    (by simp [opcodeRows, fixedRows, lowRows, highRows, fieldOp, fieldX_xkk, fieldKK_xkk])

/-- The rows of leading nibble 8 look at the leading and the last nibble. -/
theorem mask_of_aluRows : ∀ r ∈ opcodeRows, fieldOp r.pat = 0x8#4 → r.mask = 0xF00F#16 := by decide

/-- When a row hits a word of leading nibble 8 and every row of its leading and last nibble builds `i` from it, the word decodes
to `i`. -/
theorem decodeWord_of_aluNibble {x y n : Nibble} {i : Instr}
    (hfits : ∃ r ∈ opcodeRows, r.hits (0x8#4 ++ x ++ y ++ n) = true ∧ r.build (0x8#4 ++ x ++ y ++ n) = i)
    (hbuild : ∀ r ∈ opcodeRows, fieldOp r.pat = 0x8#4 → fieldN r.pat = n → r.build (0x8#4 ++ x ++ y ++ n) = i) :
    decodeWord (0x8#4 ++ x ++ y ++ n) = i := by
  rcases decodeWord_cases (0x8#4 ++ x ++ y ++ n) with ⟨r, hr, hmatch, hdec⟩ | ⟨hnone, -⟩
  · have hop : fieldOp r.pat = 0x8#4 := (fieldOp_pat_of_matches hr hmatch).trans (fieldOp_xyn _ x y n)
    have hn : fieldN r.pat = n := by rw [← hmatch, mask_of_aluRows r hr hop, mask_F00F, fieldN_xyn]
    exact hdec.trans (hbuild r hr hop hn)
  · obtain ⟨r, hr, hhit, -⟩ := hfits
    exact absurd ((r.hits_iff _).mp hhit) (hnone r hr)

theorem decodeWord_orReg (x y : Nibble) : decodeWord (0x8#4 ++ x ++ y ++ 0x1#4) = .orReg x y :=
  decodeWord_of_aluNibble (Laws.EncodeFits.orReg x y)
    (by simp [opcodeRows, fixedRows, lowRows, highRows, fieldOp, fieldN, fieldX_xyn, fieldY_xyn])

theorem decodeWord_andReg (x y : Nibble) : decodeWord (0x8#4 ++ x ++ y ++ 0x2#4) = .andReg x y :=
  decodeWord_of_aluNibble (Laws.EncodeFits.andReg x y)
    (by simp [opcodeRows, fixedRows, lowRows, highRows, fieldOp, fieldN, fieldX_xyn, fieldY_xyn])

theorem decodeWord_xorReg (x y : Nibble) : decodeWord (0x8#4 ++ x ++ y ++ 0x3#4) = .xorReg x y :=
  decodeWord_of_aluNibble (Laws.EncodeFits.xorReg x y)
    (by simp [opcodeRows, fixedRows, lowRows, highRows, fieldOp, fieldN, fieldX_xyn, fieldY_xyn])

end Sys2Proof

namespace Sys2Proof.Machine

/-! ## The effect of a register write -/

theorem State.advance_setReg_keepsAllBut (s : State) (x : Nibble) (b : Byte) :
    KeepsAllBut [.pc, .regs] s (s.advance.setReg x b) := by
  apply KeepsAllBut.of_fields <;> simp

/-- An instruction that advances and then writes one register, `VF` like any other (R20). -/
theorem writesReg_of_exec {i : Instr} {s : State} {x : Nibble} {b : Byte} (h : exec i s = .next (s.advance.setReg x b)) :
    ∃ t, exec i s = .next t ∧ t.reg x = b ∧ (∀ r, r ≠ x → t.reg r = s.reg r) ∧ t.pc = s.pc + 2 ∧
      KeepsAllBut [.pc, .regs] s t := by
  refine ⟨_, h, ?_, fun r hr => ?_, rfl, s.advance_setReg_keepsAllBut x b⟩
  · rw [State.reg_setReg, if_pos rfl]
  · rw [State.reg_setReg, if_neg hr, State.reg_advance]

/-- `writesReg_of_exec` for a value combined from two registers bit by bit. -/
theorem combinesBits_of_exec {i : Instr} {s : State} {x y : Nibble} {b : Byte} (f : Bool → Bool → Bool)
    (hbits : ∀ k, b.getLsbD k = f ((s.reg x).getLsbD k) ((s.reg y).getLsbD k))
    (h : exec i s = .next (s.advance.setReg x b)) :
    ∃ t, exec i s = .next t ∧ (∀ k < 8, (t.reg x).getLsbD k = f ((s.reg x).getLsbD k) ((s.reg y).getLsbD k)) ∧
      (∀ r, r ≠ x → t.reg r = s.reg r) ∧ t.pc = s.pc + 2 ∧ KeepsAllBut [.pc, .regs] s t := by
  obtain ⟨t, hexec, hx, hframe⟩ := writesReg_of_exec h
  exact ⟨t, hexec, fun k _ => hx ▸ hbits k, hframe⟩

/-! ## The instructions -/

theorem exec_ldImm (x : Nibble) (kk : Byte) (s : State) : exec (.ldImm x kk) s = .next (s.advance.setReg x kk) := rfl

theorem exec_addImm (x : Nibble) (kk : Byte) (s : State) :
    exec (.addImm x kk) s = .next (s.advance.setReg x (s.reg x + kk)) := rfl

theorem exec_orReg (x y : Nibble) (s : State) :
    exec (.orReg x y) s = .next (s.advance.setReg x (s.reg x ||| s.reg y)) := rfl

theorem exec_andReg (x y : Nibble) (s : State) :
    exec (.andReg x y) s = .next (s.advance.setReg x (s.reg x &&& s.reg y)) := rfl

theorem exec_xorReg (x y : Nibble) (s : State) :
    exec (.xorReg x y) s = .next (s.advance.setReg x (s.reg x ^^^ s.reg y)) := rfl

/-- Settles O26: an advance and a write of the immediate. -/
theorem loadImmediateSetsRegister : Obligations.LoadImmediateSetsRegister := fun x kk s =>
  ⟨decodeWord_ldImm x kk, writesReg_of_exec (exec_ldImm x kk s)⟩

/-- Settles O27: an advance and a write of the 8-bit sum, which is the sum modulo 256. -/
theorem addImmediateWraps : Obligations.AddImmediateWraps := by
  refine fun x kk s => ⟨decodeWord_addImm x kk, ?_⟩
  obtain ⟨t, hexec, hx, hframe⟩ := writesReg_of_exec (exec_addImm x kk s)
  exact ⟨t, hexec, by rw [hx, BitVec.toNat_add], hframe⟩

/-- Settles O29: an advance and a write of the two registers combined bit by bit. -/
theorem bitwiseOperations : Obligations.BitwiseOperations := fun x y s =>
  ⟨⟨decodeWord_orReg x y, combinesBits_of_exec or (fun _ => BitVec.getLsbD_or) (exec_orReg x y s)⟩,
    ⟨decodeWord_andReg x y, combinesBits_of_exec and (fun _ => BitVec.getLsbD_and) (exec_andReg x y s)⟩,
    decodeWord_xorReg x y, combinesBits_of_exec xor (fun _ => BitVec.getLsbD_xor) (exec_xorReg x y s)⟩

end Sys2Proof.Machine
end

section
/-! PROOFS. Address register and memory transfers (44_address_and_memory.md): `LD I, nnn`, `LD F, Vx`, `LD B, Vx`, `LD [I], Vx`,
`LD Vx, [I]` (R140, R142 to R145). -/

namespace Sys2Proof

/-! ## The words -/

/-- When a row hits a word and every row that matches it builds `i` from it, the word decodes to `i`. -/
theorem decodeWord_of_matches {w : Word} {i : Instr} (hfits : ∃ r ∈ opcodeRows, r.hits w = true ∧ r.build w = i)
    (hbuild : ∀ r ∈ opcodeRows, w &&& r.mask = r.pat → r.build w = i) : decodeWord w = i := by
  rcases decodeWord_cases w with ⟨r, hr, hmatch, hdec⟩ | ⟨hnone, -⟩
  · exact hdec.trans (hbuild r hr hmatch)
  · obtain ⟨r, hr, hhit, -⟩ := hfits
    exact absurd ((r.hits_iff w).mp hhit) (hnone r hr)

/-- The rows of leading nibble F look at the leading nibble and the low byte. -/
theorem mask_of_rowsF : ∀ r ∈ opcodeRows, fieldOp r.pat = 0xF#4 → r.mask = 0xF0FF#16 := by decide

/-- When a row hits a word of leading nibble F and every row of its leading nibble and low byte builds `i` from it, the word
decodes to `i`. -/
theorem decodeWord_of_lowByteF {x : Nibble} {kk : Byte} {i : Instr}
    (hfits : ∃ r ∈ opcodeRows, r.hits (0xF#4 ++ x ++ kk) = true ∧ r.build (0xF#4 ++ x ++ kk) = i)
    (hbuild : ∀ r ∈ opcodeRows, fieldOp r.pat = 0xF#4 → fieldKK r.pat = kk → r.build (0xF#4 ++ x ++ kk) = i) :
    decodeWord (0xF#4 ++ x ++ kk) = i := by
  refine decodeWord_of_matches hfits fun r hr hmatch => ?_
  have hop : fieldOp r.pat = 0xF#4 := (fieldOp_pat_of_matches hr hmatch).trans (fieldOp_xkk _ x kk)
  have hkk : fieldKK r.pat = kk := by rw [← hmatch, mask_of_rowsF r hr hop, mask_F0FF, fieldKK_xkk]
  exact hbuild r hr hop hkk

/-- Only the row of `LD I, nnn` has leading nibble A. -/
theorem decodeWord_ldI (nnn : Addr) : decodeWord (0xA#4 ++ nnn) = .ldI nnn :=
  decodeWord_of_leadingNibble (Laws.EncodeFits.ldI nnn)
    (by simp [opcodeRows, fixedRows, lowRows, highRows, fieldOp, fieldNNN_nnn])

theorem decodeWord_ldGlyph (x : Nibble) : decodeWord (0xF#4 ++ x ++ 0x29#8) = .ldGlyph x :=
  decodeWord_of_lowByteF (Laws.EncodeFits.ldGlyph x)
    (by simp [opcodeRows, fixedRows, lowRows, highRows, fieldOp, fieldKK, fieldX_xkk])

theorem decodeWord_ldBcd (x : Nibble) : decodeWord (0xF#4 ++ x ++ 0x33#8) = .ldBcd x :=
  decodeWord_of_lowByteF (Laws.EncodeFits.ldBcd x)
    (by simp [opcodeRows, fixedRows, lowRows, highRows, fieldOp, fieldKK, fieldX_xkk])

theorem decodeWord_storeRegs (x : Nibble) : decodeWord (0xF#4 ++ x ++ 0x55#8) = .storeRegs x :=
  decodeWord_of_lowByteF (Laws.EncodeFits.storeRegs x)
    (by simp [opcodeRows, fixedRows, lowRows, highRows, fieldOp, fieldKK, fieldX_xkk])

theorem decodeWord_loadRegs (x : Nibble) : decodeWord (0xF#4 ++ x ++ 0x65#8) = .loadRegs x :=
  decodeWord_of_lowByteF (Laws.EncodeFits.loadRegs x)
    (by simp [opcodeRows, fixedRows, lowRows, highRows, fieldOp, fieldKK, fieldX_xkk])

end Sys2Proof

namespace Sys2Proof.Machine

/-! ## Writes of the address register -/

theorem State.advance_setI_keepsAllBut (s : State) (w : Word) : KeepsAllBut [.pc, .addressReg] s (s.advance.setI w) := by
  apply KeepsAllBut.of_fields <;> simp

/-- An instruction that advances and then writes `I`. -/
theorem writesI_of_exec {i : Instr} {s : State} {w : Word} (h : exec i s = .next (s.advance.setI w)) :
    ∃ t, exec i s = .next t ∧ t.i = w ∧ t.pc = s.pc + 2 ∧ KeepsAllBut [.pc, .addressReg] s t :=
  ⟨_, h, rfl, rfl, s.advance_setI_keepsAllBut w⟩

theorem exec_ldI (nnn : Addr) (s : State) : exec (.ldI nnn) s = .next (s.advance.setI (addrOperand nnn)) := rfl

/-- Settles O33: an advance and a write of the zero-extended operand. -/
theorem loadAddressRegister : Obligations.LoadAddressRegister := by
  refine fun nnn s => ⟨decodeWord_ldI nnn, ?_⟩
  obtain ⟨t, hexec, hi, hframe⟩ := writesI_of_exec (exec_ldI nnn s)
  exact ⟨t, hexec, hi ▸ toNat_addrOperand nnn, hframe⟩

theorem toNat_glyphAddress {d : Nat} (h : d ≤ 15) : (BitVec.ofNat 16 (5 * d)).toNat = 5 * d := by
  rw [BitVec.toNat_ofNat, Nat.mod_eq_of_lt (by omega)]

/-- Settles O35: the case of `execLdGlyph_cases` the digit selects. -/
theorem loadGlyphAddress : Obligations.LoadGlyphAddress := by
  refine fun x s => ⟨decodeWord_ldGlyph x, ?_⟩
  rcases execLdGlyph_cases x s with ⟨hdigit, hexec⟩ | ⟨hbig, hexec⟩
  · obtain ⟨t, hnext, hi, hframe⟩ := writesI_of_exec (i := .ldGlyph x) hexec
    exact ⟨fun _ => ⟨t, hnext, hi ▸ toNat_glyphAddress hdigit, hframe⟩, fun h => by omega⟩
  · exact ⟨fun h => by omega, fun _ => raises_of_exec hexec⟩

/-! ## Ranges by their last byte -/

/-- A range that is not empty lies in memory exactly when its last byte does (R57). -/
theorem inRange_succ_iff (a n : Nat) : inRange a (n + 1) = true ↔ a + n < config.memSize := by
  rw [inRange_iff]; omega

theorem inRange_succ_eq_false_iff (a n : Nat) : inRange a (n + 1) = false ↔ config.memSize ≤ a + n := by
  rw [← Bool.not_eq_true, inRange_succ_iff, Nat.not_lt]

/-! ## Stores at `I` -/

/-- What a completed store may change: `pc` and memory. -/
theorem State.advance_mem_keepsAllBut (s : State) (m : Memory) : KeepsAllBut [.pc, .memory] s { s.advance with mem := m } := by
  apply KeepsAllBut.of_fields <;> simp

/-- An instruction that advances and then stores `bs` from `I` on: the bytes lie there, and every other byte is as before. -/
theorem storesBytes_of_exec {i : Instr} {s : State} {bs : List Byte} (hwf : Memory.wf s.mem = true)
    (hrange : s.i.toNat + bs.length ≤ config.memSize)
    (h : exec i s = .next { s.advance with mem := Memory.writeBytes s.mem s.i.toNat bs }) :
    ∃ t, exec i s = .next t ∧ (∀ k < bs.length, t.memByte (s.i.toNat + k) = bs.getD k 0) ∧
      (∀ a, a < s.i.toNat ∨ s.i.toNat + bs.length ≤ a → t.memByte a = s.memByte a) ∧ t.pc = s.pc + 2 ∧
      KeepsAllBut [.pc, .memory] s t := by
  refine ⟨_, h, fun k hk => ?_, fun a ha => ?_, rfl, s.advance_mem_keepsAllBut _⟩
  · rw [State.memByte, Memory.read_writeBytes _ _ bs hwf hrange, if_pos (by omega), Nat.add_sub_cancel_left]
  · rw [State.memByte, Memory.read_writeBytes _ _ bs hwf hrange, if_neg (by omega), State.memByte]

/-- Byte `k` of the decimal form is the digit of weight `10 ^ (2 - k)` (R143). -/
theorem toNat_getD_bcdDigits (b : Byte) {k : Nat} (hk : k < 3) :
    ((bcdDigits b).getD k 0).toNat = b.toNat / 10 ^ (2 - k) % 10 := by
  have hb := b.isLt
  match k with
  | 0 => show b.toNat / 100 % 256 = b.toNat / 100 % 10; omega
  | 1 => show b.toNat / 10 % 10 % 256 = b.toNat / 10 % 10; omega
  | 2 => show b.toNat % 10 % 256 = b.toNat / 1 % 10; omega

/-- Settles O36: the case of `execLdBcd_cases` the range selects; a byte has at most three decimal digits. -/
theorem storeDecimalDigits : Obligations.StoreDecimalDigits := by
  refine fun x s hwf => ⟨decodeWord_ldBcd x, ?_⟩
  rcases execLdBcd_cases x s with ⟨hin, hexec⟩ | ⟨hout, hexec⟩
  · have hlast : s.i.toNat + 2 < config.memSize := (inRange_succ_iff _ 2).mp hin
    obtain ⟨t, hnext, hbytes, hother, hframe⟩ :=
      storesBytes_of_exec (i := .ldBcd x) (bs := bcdDigits (s.reg x)) hwf hlast hexec
    have hdigit : ∀ k < 3, (t.memByte (s.i.toNat + k)).toNat = (s.reg x).toNat / 10 ^ (2 - k) % 10 := fun k hk => by
      rw [hbytes k hk, toNat_getD_bcdDigits _ hk]
    have hhundreds : (s.reg x).toNat / 100 % 10 = (s.reg x).toNat / 100 := by
      have := (s.reg x).isLt
      omega
    exact ⟨fun _ => ⟨t, hnext, (hdigit 0 (by decide)).trans hhundreds, hdigit 1 (by decide),
      (hdigit 2 (by decide)).trans (by rw [Nat.sub_self, Nat.pow_zero, Nat.div_one]), hother, hframe⟩, fun h => by omega⟩
  · have hpast : config.memSize ≤ s.i.toNat + 2 := (inRange_succ_eq_false_iff _ 2).mp hout
    exact ⟨fun h => by omega, fun _ => raises_of_exec hexec⟩

/-- Settles O37: the case of `execStoreRegs_cases` the range selects. -/
theorem storeRegistersToMemory : Obligations.StoreRegistersToMemory := by
  refine fun x s hwf => ⟨decodeWord_storeRegs x, ?_⟩
  rcases execStoreRegs_cases x s with ⟨hin, hexec⟩ | ⟨hout, hexec⟩
  · have hlast : s.i.toNat + x.toNat < config.memSize := (inRange_succ_iff _ _).mp hin
    have hlen := s.length_regsUpTo x
    obtain ⟨t, hnext, hbytes, hother, hframe⟩ :=
      storesBytes_of_exec (i := .storeRegs x) hwf (by rw [hlen]; exact hlast) hexec
    refine ⟨fun _ => ⟨t, hnext, fun k hk => ?_, fun a ha => hother a (by omega), hframe⟩, fun h => by omega⟩
    rw [hbytes k.toNat (by omega), State.getD_regsUpTo s x k 0 hk]
  · have hpast : config.memSize ≤ s.i.toNat + x.toNat := (inRange_succ_eq_false_iff _ _).mp hout
    exact ⟨fun h => by omega, fun _ => raises_of_exec hexec⟩

/-! ## The load from `I` -/

theorem State.advance_setRegs_keepsAllBut (s : State) (bs : List Byte) :
    KeepsAllBut [.pc, .regs] s (s.advance.setRegs bs) := by
  apply KeepsAllBut.of_fields <;> simp

/-- A group write of `n` bytes read from `a` on reaches the registers below `n` (R145). -/
theorem State.reg_setRegs_readBytes (s : State) (m : Memory) (a n : Nat) (r : Nibble) :
    (s.setRegs (Memory.readBytes m a n)).reg r = if r.toNat < n then Memory.read m (a + r.toNat) else s.reg r := by
  rw [State.reg_setRegs, Memory.getD_readBytes]

/-- Settles O38: the case of `execLoadRegs_cases` the range selects. -/
theorem loadRegistersFromMemory : Obligations.LoadRegistersFromMemory := by
  refine fun x s => ⟨decodeWord_loadRegs x, ?_⟩
  rcases execLoadRegs_cases x s with ⟨hin, hexec⟩ | ⟨hout, hexec⟩
  · have hlast : s.i.toNat + x.toNat < config.memSize := (inRange_succ_iff _ _).mp hin
    refine ⟨fun _ => ⟨_, hexec, fun k => ?_, rfl, s.advance_setRegs_keepsAllBut _⟩, fun h => by omega⟩
    simp only [State.reg_setRegs_readBytes, State.reg_advance, State.memByte, Nat.lt_succ_iff]
  · have hpast : config.memSize ≤ s.i.toNat + x.toNat := (inRange_succ_eq_false_iff _ _).mp hout
    exact ⟨fun h => by omega, fun _ => raises_of_exec hexec⟩

end Sys2Proof.Machine
end

section
/-! PROOFS. The framebuffer instruction `CLS` (46_display.md, R155). -/

namespace Sys2Proof

theorem decodeWord_cls : decodeWord 0x00E0 = .cls := rfl

end Sys2Proof

namespace Sys2Proof.Machine

/-- What an instruction that advances and then replaces the framebuffer may change: `pc` and the screen. -/
theorem State.advance_fb_keepsAllBut (s : State) (f : Frame) : KeepsAllBut [.pc, .screen] s { s.advance with fb := f } := by
  apply KeepsAllBut.of_fields <;> simp

theorem exec_cls (s : State) : exec .cls s = .next { s.advance with fb := Frame.blank } := rfl

/-- Settles O41: an advance and a write of the blank framebuffer. -/
theorem clearScreenBlanks : Obligations.ClearScreenBlanks := fun s =>
  ⟨decodeWord_cls, _, exec_cls s, Frame.pixel_blank, rfl, s.advance_fb_keepsAllBut Frame.blank⟩

end Sys2Proof.Machine
end

section
/-! PROOFS. The timer instructions (48_timers.md): `LD Vx, DT`, `LD DT, Vx`, `LD ST, Vx` (R175 to R177), and the tick that ends
their step (R94). -/

namespace Sys2Proof

/-! ## The words -/

theorem decodeWord_ldFromDt (x : Nibble) : decodeWord (0xF#4 ++ x ++ 0x07#8) = .ldFromDt x :=
  decodeWord_of_lowByteF (Laws.EncodeFits.ldFromDt x)
    (by simp [opcodeRows, fixedRows, lowRows, highRows, fieldOp, fieldKK, fieldX_xkk])

theorem decodeWord_ldToDt (x : Nibble) : decodeWord (0xF#4 ++ x ++ 0x15#8) = .ldToDt x :=
  decodeWord_of_lowByteF (Laws.EncodeFits.ldToDt x)
    (by simp [opcodeRows, fixedRows, lowRows, highRows, fieldOp, fieldKK, fieldX_xkk])

theorem decodeWord_ldToSt (x : Nibble) : decodeWord (0xF#4 ++ x ++ 0x18#8) = .ldToSt x :=
  decodeWord_of_lowByteF (Laws.EncodeFits.ldToSt x)
    (by simp [opcodeRows, fixedRows, lowRows, highRows, fieldOp, fieldKK, fieldX_xkk])

end Sys2Proof

namespace Sys2Proof.Machine

/-! ## The instructions -/

theorem State.advance_setDt_keepsAllBut (s : State) (b : Byte) : KeepsAllBut [.pc, .delayTimer] s (s.advance.setDt b) := by
  apply KeepsAllBut.of_fields <;> simp

theorem State.advance_setSt_keepsAllBut (s : State) (b : Byte) : KeepsAllBut [.pc, .soundTimer] s (s.advance.setSt b) := by
  apply KeepsAllBut.of_fields <;> simp

theorem exec_ldFromDt (x : Nibble) (s : State) : exec (.ldFromDt x) s = .next (s.advance.setReg x s.dt) := rfl

theorem exec_ldToDt (x : Nibble) (s : State) : exec (.ldToDt x) s = .next (s.advance.setDt (s.reg x)) := rfl

theorem exec_ldToSt (x : Nibble) (s : State) : exec (.ldToSt x) s = .next (s.advance.setSt (s.reg x)) := rfl

/-! ## The step around an instruction that completes -/

/-- A running core with two bytes at `pc` runs the instruction they decode to (R93). -/
theorem step_of_inMemory {s : State} (hrun : s.halted = false) (hin : s.pc.toNat + 1 < config.memSize) :
    step s = finish (exec (decodeWord (wordAtPc s)) s) := by
  rcases step_cases s with ⟨hhalt, -⟩ | ⟨-, hpast, -⟩ | ⟨-, -, e⟩
  · exact absurd (hrun.symm.trans hhalt) Bool.false_ne_true
  · exact absurd hin (Nat.not_lt.mpr hpast)
  · exact e

/-- The inputs of the next step rest on the host's part alone. -/
theorem State.input_of_sameHost {s t : State} (h : Part.host.same s t) : t.input = s.input := by
  obtain ⟨hinputs, hdrawn⟩ := h
  rw [State.input, State.input, hinputs, hdrawn]

/-- When a running core decodes `i` and `i` answers a state `t` that is not halted and leaves the host's part alone, the step ends
in `t` with each timer, as the instruction left it, counted down by the step's own tick (R93, R94). -/
theorem step_of_exec {i : Instr} {s t : State} {touched : List Part} (hrun : s.halted = false)
    (hin : s.pc.toNat + 1 < config.memSize) (hdec : decodeWord (wordAtPc s) = i) (hexec : exec i s = .next t)
    (hframe : KeepsAllBut touched s t) (hstatus : .status ∉ touched) (hhost : .host ∉ touched) :
    ∃ u, step s = .next u ∧ (∀ r, u.reg r = t.reg r) ∧ u.dt.toNat = t.dt.toNat - (if s.input.tick then 1 else 0) ∧
      u.st.toNat = t.st.toNat - (if s.input.tick then 1 else 0) := by
  have hlive : t.halted = false := (hframe .status hstatus).1.trans hrun
  have hinput : t.input = s.input := State.input_of_sameHost (hframe .host hhost)
  refine ⟨t.tickTimers.takeInput, ?_, fun _ => rfl, ?_, ?_⟩
  · rw [step_of_inMemory hrun hin, hdec, hexec, finish_next, State.endStep_running hlive]
  · rw [State.takeInput_dt, State.tickTimers_dt, toNat_countDown, hinput]
  · rw [State.takeInput_st, State.tickTimers_st, toNat_countDown, hinput]

theorem step_ldFromDt {x : Nibble} {s : State} (hrun : s.halted = false) (hin : s.pc.toNat + 1 < config.memSize)
    (hword : wordAtPc s = 0xF#4 ++ x ++ 0x07#8) : ∃ t, step s = .next t ∧ t.reg x = s.dt ∧
      t.dt.toNat = s.dt.toNat - (if s.input.tick then 1 else 0) := by
  obtain ⟨t, hstep, hreg, hdt, -⟩ := step_of_exec hrun hin (hword ▸ decodeWord_ldFromDt x) (exec_ldFromDt x s)
    (s.advance_setReg_keepsAllBut x s.dt) (by decide) (by decide)
  exact ⟨t, hstep, by rw [hreg, State.reg_setReg, if_pos rfl], hdt⟩

theorem step_ldToDt {x : Nibble} {s : State} (hrun : s.halted = false) (hin : s.pc.toNat + 1 < config.memSize)
    (hword : wordAtPc s = 0xF#4 ++ x ++ 0x15#8) : ∃ t, step s = .next t ∧
      t.dt.toNat = (s.reg x).toNat - (if s.input.tick then 1 else 0) := by
  obtain ⟨t, hstep, -, hdt, -⟩ := step_of_exec hrun hin (hword ▸ decodeWord_ldToDt x) (exec_ldToDt x s)
    (s.advance_setDt_keepsAllBut _) (by decide) (by decide)
  exact ⟨t, hstep, hdt⟩

theorem step_ldToSt {x : Nibble} {s : State} (hrun : s.halted = false) (hin : s.pc.toNat + 1 < config.memSize)
    (hword : wordAtPc s = 0xF#4 ++ x ++ 0x18#8) : ∃ t, step s = .next t ∧
      t.st.toNat = (s.reg x).toNat - (if s.input.tick then 1 else 0) := by
  obtain ⟨t, hstep, -, -, hst⟩ := step_of_exec hrun hin (hword ▸ decodeWord_ldToSt x) (exec_ldToSt x s)
    (s.advance_setSt_keepsAllBut _) (by decide) (by decide)
  exact ⟨t, hstep, hst⟩

/-- Settles O47: an advance and one copy, and then the tick of the same step on the timers as the copy left them. -/
theorem timerInstructions : Obligations.TimerInstructions := fun x s =>
  ⟨⟨decodeWord_ldFromDt x, writesReg_of_exec (exec_ldFromDt x s)⟩,
    ⟨decodeWord_ldToDt x, _, exec_ldToDt x s, rfl, rfl, s.advance_setDt_keepsAllBut _⟩,
    ⟨decodeWord_ldToSt x, _, exec_ldToSt x s, rfl, rfl, s.advance_setSt_keepsAllBut _⟩,
    fun hrun hin => ⟨step_ldFromDt hrun hin, step_ldToDt hrun hin, step_ldToSt hrun hin⟩⟩

end Sys2Proof.Machine
end

section
/-! PROOFS. The opcode map as a whole (30_encoding.md, R76 to R78): when a word matches a row, which words are `SYS`, and that the
decoder and the encoder agree. -/

namespace Sys2Proof

/-! ## Fields of literal words -/

@[simp] theorem fieldOp_ofNat (n : Nat) : fieldOp (BitVec.ofNat 16 n) = BitVec.ofNat 4 (n / 4096) := by
  apply BitVec.eq_of_toNat_eq
  simp only [fieldOp, BitVec.extractLsb'_toNat, BitVec.toNat_ofNat, Nat.shiftRight_eq_div_pow]
  omega

@[simp] theorem fieldN_ofNat (n : Nat) : fieldN (BitVec.ofNat 16 n) = BitVec.ofNat 4 n := by
  apply BitVec.eq_of_toNat_eq
  simp only [fieldN, BitVec.extractLsb'_toNat, BitVec.toNat_ofNat, Nat.shiftRight_eq_div_pow]
  omega

@[simp] theorem fieldNNN_ofNat (n : Nat) : fieldNNN (BitVec.ofNat 16 n) = BitVec.ofNat 12 n := by
  apply BitVec.eq_of_toNat_eq
  simp only [fieldNNN, BitVec.extractLsb'_toNat, BitVec.toNat_ofNat, Nat.shiftRight_eq_div_pow]
  omega

@[simp] theorem fieldKK_ofNat (n : Nat) : fieldKK (BitVec.ofNat 16 n) = BitVec.ofNat 8 n := by
  apply BitVec.eq_of_toNat_eq
  simp only [fieldKK, BitVec.extractLsb'_toNat, BitVec.toNat_ofNat, Nat.shiftRight_eq_div_pow]
  omega

/-! ## A word is the concatenation of its fields -/

theorem fieldNNN_eq_xkk (w : Word) : fieldNNN w = fieldX w ++ fieldKK w :=
  (BitVec.extractLsb'_append_extractLsb'_eq_extractLsb' (x := w) (start₁ := 0) (len₁ := 8) (start₂ := 8) (len₂ := 4) rfl).symm

theorem fieldKK_eq_yn (w : Word) : fieldKK w = fieldY w ++ fieldN w :=
  (BitVec.extractLsb'_append_extractLsb'_eq_extractLsb' (x := w) (start₁ := 0) (len₁ := 4) (start₂ := 4) (len₂ := 4) rfl).symm

theorem word_eq_xkk (w : Word) : w = fieldOp w ++ fieldX w ++ fieldKK w := by
  rw [xkk_eq_nnn, ← fieldNNN_eq_xkk, ← word_eq_nnn]

theorem word_eq_xyn (w : Word) : w = fieldOp w ++ fieldX w ++ fieldY w ++ fieldN w := by
  rw [xyn_eq_xkk, ← fieldKK_eq_yn, ← word_eq_xkk]

/-! ## A word encoded from its own fields -/

theorem op_fieldNNN_eq_iff (o : Nibble) (w : Word) : o ++ fieldNNN w = w ↔ o = fieldOp w :=
  ⟨fun h => by rw [← h, fieldOp_nnn], fun h => by rw [h, ← word_eq_nnn]⟩

theorem op_fieldX_kk_eq_iff (o : Nibble) (kk : Byte) (w : Word) :
    o ++ fieldX w ++ kk = w ↔ o = fieldOp w ∧ kk = fieldKK w :=
  ⟨fun h => ⟨by rw [← h, fieldOp_xkk], by rw [← h, fieldKK_xkk]⟩, fun ⟨ho, hkk⟩ => by rw [ho, hkk, ← word_eq_xkk]⟩

theorem op_fieldX_fieldY_n_eq_iff (o n : Nibble) (w : Word) :
    o ++ fieldX w ++ fieldY w ++ n = w ↔ o = fieldOp w ∧ n = fieldN w :=
  ⟨fun h => ⟨by rw [← h, fieldOp_xyn], by rw [← h, fieldN_xyn]⟩, fun ⟨ho, hn⟩ => by rw [ho, hn, ← word_eq_xyn]⟩

/-! ## Matching by fields: one lemma per mask of R76 -/

@[simp] theorem matches_F000_iff {w p : Word} (hp : p &&& 0xF000#16 = p) : w &&& 0xF000#16 = p ↔ fieldOp w = fieldOp p := by
  conv_lhs => rw [← hp, word_eq_nnn w, word_eq_nnn p, mask_F000, mask_F000]
  exact ⟨fun h => by rw [← fieldOp_nnn (fieldOp w) 0#12, h, fieldOp_nnn], fun h => by rw [h]⟩

@[simp] theorem matches_F00F_iff {w p : Word} (hp : p &&& 0xF00F#16 = p) :
    w &&& 0xF00F#16 = p ↔ fieldOp w = fieldOp p ∧ fieldN w = fieldN p := by
  conv_lhs => rw [← hp, word_eq_xyn w, word_eq_xyn p, mask_F00F, mask_F00F]
  exact ⟨fun h => ⟨by rw [← fieldOp_xyn (fieldOp w) 0#4 0#4 (fieldN w), h, fieldOp_xyn],
    by rw [← fieldN_xyn (fieldOp w) 0#4 0#4 (fieldN w), h, fieldN_xyn]⟩, fun ⟨ho, hn⟩ => by rw [ho, hn]⟩

@[simp] theorem matches_F0FF_iff {w p : Word} (hp : p &&& 0xF0FF#16 = p) :
    w &&& 0xF0FF#16 = p ↔ fieldOp w = fieldOp p ∧ fieldKK w = fieldKK p := by
  conv_lhs => rw [← hp, word_eq_xkk w, word_eq_xkk p, mask_F0FF, mask_F0FF]
  exact ⟨fun h => ⟨by rw [← fieldOp_xkk (fieldOp w) 0#4 (fieldKK w), h, fieldOp_xkk],
    by rw [← fieldKK_xkk (fieldOp w) 0#4 (fieldKK w), h, fieldKK_xkk]⟩, fun ⟨ho, hkk⟩ => by rw [ho, hkk]⟩

@[simp] theorem matches_FFFF_iff (w p : Word) : w &&& 0xFFFF#16 = p ↔ w = p := by
  rw [show w &&& 0xFFFF#16 = w from BitVec.and_allOnes]

/-! ## One row per word -/

/-- Two rows of R76 differ in a bit that both of them look at. -/
theorem opcodeRows_pairwise : opcodeRows.Pairwise fun r r' => r.pat &&& r'.mask ≠ r'.pat &&& r.mask := by decide

/-- A word matches at most one row (R77). -/
theorem row_unique {r r' : Row} (hr : r ∈ opcodeRows) (hr' : r' ∈ opcodeRows) {w : Word} (h : w &&& r.mask = r.pat)
    (h' : w &&& r'.mask = r'.pat) : r = r' := by
  by_contra hne
  have hsymm : Std.Symm fun r r' : Row => r.pat &&& r'.mask ≠ r'.pat &&& r.mask := ⟨fun _ _ => Ne.symm⟩
  have hdiffer : r.pat &&& r'.mask ≠ r'.pat &&& r.mask := opcodeRows_pairwise.forall hr hr' hne
  exact hdiffer (by rw [← h, ← h', BitVec.and_assoc, BitVec.and_assoc, BitVec.and_comm r.mask])

/-- Settles O7: the rows 4 to 35 are rows of the table, in which a word matches at most one. -/
theorem rowsAreDisjoint : Obligations.RowsAreDisjoint := fun _ _ hr _ hr' h h' =>
  congrArg Row.mnemonic (row_unique (List.mem_append_right _ hr) (List.mem_append_right _ hr') h h')

/-- Settles O8: the row the decoder finds is the only one the word matches. -/
theorem decodeTakesTheMatchingRow : Obligations.DecodeTakesTheMatchingRow := by
  intro w r hr h
  rcases decodeWord_cases w with ⟨r', hr', h', hdec⟩ | ⟨hnone, -⟩
  · rw [hdec, row_unique hr hr' h h']
  · exact absurd h (hnone r hr)

/-! ## The encoder on a decoded word -/

/-- A row's instruction has the word it was built from: the match fixes the bits the encoder writes out, and the row copies the
other fields. -/
theorem encode_build {w : Word} : ∀ r ∈ opcodeRows, w &&& r.mask = r.pat → encode (r.build w) = w := by
  simp +contextual [opcodeRows, fixedRows, lowRows, highRows, encode, op_fieldNNN_eq_iff, op_fieldX_kk_eq_iff,
    op_fieldX_fieldY_n_eq_iff]

/-- Settles O3: a matching row gives its word back, and so does `SYS`, which carries every bit of its word. -/
theorem encodeOfDecode : Obligations.EncodeOfDecode := by
  intro w
  rcases decodeWord_cases w with ⟨r, hr, h, hdec⟩ | ⟨-, hdec⟩
  · rw [hdec, encode_build r hr h]
  · rw [hdec]; exact (word_eq_nnn w).symm

/-! ## The words that are `SYS` -/

@[simp] theorem fieldN_nnn (o : Nibble) (a : Addr) : fieldN (o ++ a) = a.extractLsb' 0 4 :=
  BitVec.extractLsb'_append_eq_of_add_le (by decide)

@[simp] theorem fieldKK_nnn (o : Nibble) (a : Addr) : fieldKK (o ++ a) = a.extractLsb' 0 8 :=
  BitVec.extractLsb'_append_eq_of_add_le (by decide)

theorem word_eq_literal_iff (o : Nibble) (a : Addr) (p : Word) : o ++ a = p ↔ o = fieldOp p ∧ a = fieldNNN p :=
  ⟨fun h => by rw [← h, fieldOp_nnn, fieldNNN_nnn]; exact ⟨rfl, rfl⟩, fun ⟨ho, ha⟩ => by rw [ho, ha, ← word_eq_nnn]⟩

/-- The last nibbles of leading nibble 8 that no row of R76 has. -/
theorem unassignedAluNibble : ∀ n : Nibble, (n = 0x8 ∨ n = 0x9 ∨ n = 0xA ∨ n = 0xB ∨ n = 0xC ∨ n = 0xD ∨ n = 0xF) ↔
    ¬n = 0x0 ∧ ¬n = 0x1 ∧ ¬n = 0x2 ∧ ¬n = 0x3 ∧ ¬n = 0x4 ∧ ¬n = 0x5 ∧ ¬n = 0x6 ∧ ¬n = 0x7 ∧ ¬n = 0xE := by decide

/-- The leading nibbles whose words all belong to one row of R76. -/
theorem wholeRowNibble : ∀ o : Nibble, o ≠ 0x0 → o ≠ 0x5 → o ≠ 0x8 → o ≠ 0x9 → o ≠ 0xE → o ≠ 0xF →
    o = 0x1 ∨ o = 0x2 ∨ o = 0x3 ∨ o = 0x4 ∨ o = 0x6 ∨ o = 0x7 ∨ o = 0xA ∨ o = 0xB ∨ o = 0xC ∨ o = 0xD := by decide

/-- The table of R78 lists exactly the words no row of R76 matches: by the leading nibble, as the table goes, the rows of that
nibble are the ones left to compare. -/
theorem sysWord_iff (op : Nibble) (nnn : Addr) :
    sysWord op nnn = true ↔ ∀ r ∈ opcodeRows, (op ++ nnn : Word) &&& r.mask ≠ r.pat := by
  simp [opcodeRows, fixedRows, lowRows, highRows, fieldOp_nnn, word_eq_literal_iff]
  unfold sysWord
  split
  case h_3 => simpa using unassignedAluNibble (nnn.extractLsb' 0 4)
  case h_7 h0 h5 h8 h9 hE hF =>
    rcases wholeRowNibble op h0 h5 h8 h9 hE hF with rfl | rfl | rfl | rfl | rfl | rfl | rfl | rfl | rfl | rfl <;> simp
  all_goals simp

/-- The decoder's answer where no row matches. -/
theorem decodeWord_of_noMatch {w : Word} (h : ∀ r ∈ opcodeRows, w &&& r.mask ≠ r.pat) :
    decodeWord w = .sys (fieldOp w) (fieldNNN w) := by
  rcases decodeWord_cases w with ⟨r, hr, hmatch, -⟩ | ⟨-, hdec⟩
  · exact absurd hmatch (h r hr)
  · exact hdec

theorem wf_build (w : Word) : ∀ r ∈ opcodeRows, (r.build w).wf = true := by
  simp [opcodeRows, fixedRows, lowRows, highRows, Instr.wf]

/-- Settles O4: a row builds no `SYS`, and a word no row matches is in the table of R78. -/
theorem decodedIsWellFormed : Obligations.DecodedIsWellFormed := by
  intro w
  rcases decodeWord_cases w with ⟨r, hr, -, hdec⟩ | ⟨hnone, hdec⟩
  · rw [hdec, wf_build w r hr]
  · rw [hdec]
    exact (sysWord_iff _ _).mpr (word_eq_nnn w ▸ hnone)

/-! ## The decoder on an encoded word -/

theorem decodeWord_of_fits {i : Instr} (h : ∃ r ∈ opcodeRows, r.hits (encode i) = true ∧ r.build (encode i) = i) :
    decodeWord (encode i) = i := by
  obtain ⟨r, hr, hhits, hbuild⟩ := h
  rw [decodeTakesTheMatchingRow _ r hr ((r.hits_iff _).mp hhits), hbuild]

/-- Settles O2: an instruction's word is a word of its own row (`EncodeFits`), the only row the word matches; a well-formed `SYS`
has a word no row matches. -/
theorem decodeOfEncode : Obligations.DecodeOfEncode := by
  intro i hwf
  cases i with
  | sys op nnn =>
    rw [encode, decodeWord_of_noMatch ((sysWord_iff op nnn).mp hwf), fieldOp_nnn, fieldNNN_nnn]
  | cls => exact decodeWord_of_fits Laws.EncodeFits.cls
  | ret => exact decodeWord_of_fits Laws.EncodeFits.ret
  | jp nnn => exact decodeWord_of_fits (Laws.EncodeFits.jp nnn)
  | call nnn => exact decodeWord_of_fits (Laws.EncodeFits.call nnn)
  | seImm x kk => exact decodeWord_of_fits (Laws.EncodeFits.seImm x kk)
  | sneImm x kk => exact decodeWord_of_fits (Laws.EncodeFits.sneImm x kk)
  | seReg x y => exact decodeWord_of_fits (Laws.EncodeFits.seReg x y)
  | ldImm x kk => exact decodeWord_of_fits (Laws.EncodeFits.ldImm x kk)
  | addImm x kk => exact decodeWord_of_fits (Laws.EncodeFits.addImm x kk)
  | ldReg x y => exact decodeWord_of_fits (Laws.EncodeFits.ldReg x y)
  | orReg x y => exact decodeWord_of_fits (Laws.EncodeFits.orReg x y)
  | andReg x y => exact decodeWord_of_fits (Laws.EncodeFits.andReg x y)
  | xorReg x y => exact decodeWord_of_fits (Laws.EncodeFits.xorReg x y)
  | addReg x y => exact decodeWord_of_fits (Laws.EncodeFits.addReg x y)
  | sub x y => exact decodeWord_of_fits (Laws.EncodeFits.sub x y)
  | shr x y => exact decodeWord_of_fits (Laws.EncodeFits.shr x y)
  | subn x y => exact decodeWord_of_fits (Laws.EncodeFits.subn x y)
  | shl x y => exact decodeWord_of_fits (Laws.EncodeFits.shl x y)
  | sneReg x y => exact decodeWord_of_fits (Laws.EncodeFits.sneReg x y)
  | ldI nnn => exact decodeWord_of_fits (Laws.EncodeFits.ldI nnn)
  | jpV0 nnn => exact decodeWord_of_fits (Laws.EncodeFits.jpV0 nnn)
  | rnd x kk => exact decodeWord_of_fits (Laws.EncodeFits.rnd x kk)
  | drw x y n => exact decodeWord_of_fits (Laws.EncodeFits.drw x y n)
  | skp x => exact decodeWord_of_fits (Laws.EncodeFits.skp x)
  | sknp x => exact decodeWord_of_fits (Laws.EncodeFits.sknp x)
  | ldFromDt x => exact decodeWord_of_fits (Laws.EncodeFits.ldFromDt x)
  | ldKey x => exact decodeWord_of_fits (Laws.EncodeFits.ldKey x)
  | ldToDt x => exact decodeWord_of_fits (Laws.EncodeFits.ldToDt x)
  | ldToSt x => exact decodeWord_of_fits (Laws.EncodeFits.ldToSt x)
  | addI x => exact decodeWord_of_fits (Laws.EncodeFits.addI x)
  | ldGlyph x => exact decodeWord_of_fits (Laws.EncodeFits.ldGlyph x)
  | ldBcd x => exact decodeWord_of_fits (Laws.EncodeFits.ldBcd x)
  | storeRegs x => exact decodeWord_of_fits (Laws.EncodeFits.storeRegs x)
  | loadRegs x => exact decodeWord_of_fits (Laws.EncodeFits.loadRegs x)

/-! ## Byte sequences -/

theorem wordOfBytes_of_word (w : Word) : wordOfBytes (w.extractLsb' 8 8) (w.extractLsb' 0 8) = w :=
  (BitVec.extractLsb'_append_extractLsb'_eq_extractLsb' (x := w) (start₁ := 0) (len₁ := 8) (start₂ := 8) (len₂ := 8) rfl).trans
    BitVec.extractLsb'_eq_self

theorem decode_bytesOfWord (w : Word) (rest : List Byte) : decode (bytesOfWord w ++ rest) = .ok (decodeWord w, rest) := by
  rw [bytesOfWord, List.cons_append, List.cons_append, List.nil_append, decode, wordOfBytes_of_word]

/-- Settles O5: the two bytes put together are the encoded word; only the empty sequence and a single byte hold no word. -/
theorem decodeConsumesTwoBytes : Obligations.DecodeConsumesTwoBytes := by
  refine ⟨fun i rest hwf => ?_, fun bs => ?_⟩
  · rw [encodeBytes, decode_bytesOfWord, decodeOfEncode i hwf]
  · match bs with
    | [] => simp [decode]
    | [b] => simp [decode]
    | hi :: lo :: rest => simp [decode]

/-- Settles O1: each word through the decode procedure. -/
theorem knownWordsDecode : Obligations.KnownWordsDecode :=
  ⟨rfl, rfl, ⟨_, rfl⟩, rfl, rfl, rfl, rfl, ⟨_, rfl⟩, rfl, rfl, rfl, rfl, rfl, rfl, rfl, _, rfl⟩

end Sys2Proof
end

section
/-! PROOFS. What one instruction does (40_step_cycle.md, 60_exceptions.md): every meaning is its one fault condition of R180 and, where
that does not hold, one effect on the state. Later proofs about all instructions go through `exec_eq` and the lemmas on `effect`. -/

namespace Sys2Proof.Machine

/-- The state an instruction answers when it does not fault; tied to `exec` by `exec_eq`. -/
def effect (i : Instr) (s : State) : State :=
  match i with
  | .sys _ _ => s.advance
  | .jp nnn => s.setPc (addrOperand nnn)
  | .jpV0 nnn => s.setPc (addrOperand nnn + zextByte (s.reg 0))
  | .call nnn => { s with
      pc := addrOperand nnn
      sp := Fin.ofNat 17 (s.sp.val + 1)
      stack := s.stack.setIfInBounds s.sp.val (s.pc + 2) }
  | .ret => { s with pc := s.slot s.sp.val, sp := Fin.ofNat 17 (s.sp.val - 1) }
  | .seImm x kk => s.advance.skipIf (s.reg x == kk)
  | .sneImm x kk => s.advance.skipIf (s.reg x != kk)
  | .seReg x y => s.advance.skipIf (s.reg x == s.reg y)
  | .sneReg x y => s.advance.skipIf (s.reg x != s.reg y)
  | .skp x => s.advance.skipIf (keyPressed s.input.keys (s.reg x))
  | .sknp x => s.advance.skipIf (!keyPressed s.input.keys (s.reg x))
  | .ldImm x kk => s.advance.setReg x kk
  | .addImm x kk => s.advance.setReg x (s.reg x + kk)
  | .ldReg x y => s.advance.setReg x (s.reg y)
  | .orReg x y => s.advance.setReg x (s.reg x ||| s.reg y)
  | .andReg x y => s.advance.setReg x (s.reg x &&& s.reg y)
  | .xorReg x y => s.advance.setReg x (s.reg x ^^^ s.reg y)
  | .addReg x y => s.advance.writeFlagged x (carryOut (s.reg x) (s.reg y)) (s.reg x + s.reg y)
  | .sub x y => s.advance.writeFlagged x (noBorrow (s.reg x) (s.reg y)) (s.reg x - s.reg y)
  | .shr x _ => s.advance.writeFlagged x (shiftOutRight (s.reg x)) (s.reg x >>> 1)
  | .subn x y => s.advance.writeFlagged x (noBorrow (s.reg y) (s.reg x)) (s.reg y - s.reg x)
  | .shl x _ => s.advance.writeFlagged x (shiftOutLeft (s.reg x)) (s.reg x <<< 1)
  | .rnd x kk => s.advance.setReg x (s.input.rnd &&& kk)
  | .ldFromDt x => s.advance.setReg x s.dt
  | .ldKey x => s.advance.keyWait x (firstPressed s.input.keys)
  | .ldToDt x => s.advance.setDt (s.reg x)
  | .ldToSt x => s.advance.setSt (s.reg x)
  | .ldI nnn => s.advance.setI (addrOperand nnn)
  | .addI x => s.advance.setI (s.i + zextByte (s.reg x))
  | .ldGlyph x => s.advance.setI (BitVec.ofNat 16 (5 * (s.reg x).toNat))
  | .ldBcd x => { s.advance with mem := Memory.writeBytes s.mem s.i.toNat (bcdDigits (s.reg x)) }
  | .storeRegs x => { s.advance with mem := Memory.writeBytes s.mem s.i.toNat (s.regsUpTo x) }
  | .loadRegs x => s.advance.setRegs (Memory.readBytes s.mem s.i.toNat (x.toNat + 1))
  | .cls => { s.advance with fb := Frame.blank }
  | .drw x y n => s.advance.drawSprite (s.reg x) (s.reg y) (Memory.readBytes s.mem s.i.toNat n.toNat)

/-! ## The one equation of `exec` -/

/-- `beyondMemory` is the range check that fails (R57). -/
theorem beyondMemory_iff (a len : Nat) : beyondMemory a len ↔ inRange a len = false := by
  rw [← Bool.not_eq_true, inRange_iff]
  simp only [beyondMemory, config_memSize]
  omega

/-- An answer that depends on one fault condition. -/
theorem eq_elim_of_condition {c : Prop} [Decidable c] {k : Fault} {o ok : Host.Outcome State Fault Refusal}
    {bad : Fault → Host.Outcome State Fault Refusal} (h : (¬c ∧ o = ok) ∨ (c ∧ o = bad k)) :
    o = (if c then some k else none).elim ok bad := by
  rcases h with ⟨hc, rfl⟩ | ⟨hc, rfl⟩
  · rw [if_neg hc, Option.elim_none]
  · rw [if_pos hc, Option.elim_some]

/-- `eq_elim_of_condition` for a bounds-checked access. -/
theorem eq_elim_of_range {a len : Nat} {k : Fault} {o ok : Host.Outcome State Fault Refusal}
    {bad : Fault → Host.Outcome State Fault Refusal}
    (h : (inRange a len = true ∧ o = ok) ∨ (inRange a len = false ∧ o = bad k)) :
    o = (if beyondMemory a len then some k else none).elim ok bad :=
  eq_elim_of_condition (h.imp (And.imp_left fun hin => by rw [beyondMemory_iff, hin]; exact Bool.noConfusion)
    (And.imp_left (beyondMemory_iff a len).mpr))

theorem setIfInBounds_eq_set {n : Nat} (stack : Vector Word 16) (w : Word) (h : n < 16) :
    stack.setIfInBounds n w = stack.set n w h :=
  Vector.ext fun k hk => by rw [Vector.getElem_setIfInBounds, Vector.getElem_set]

theorem effect_call {nnn : Addr} {s : State} (h : s.sp.val < 16) : effect (.call nnn) s =
    { s with pc := addrOperand nnn, sp := ⟨s.sp.val + 1, by omega⟩, stack := s.stack.set s.sp.val (s.pc + 2) h } := by
  have hsp : Fin.ofNat 17 (s.sp.val + 1) = ⟨s.sp.val + 1, by omega⟩ := Fin.ext (Nat.mod_eq_of_lt (by omega))
  rw [effect, hsp, setIfInBounds_eq_set _ _ h]

theorem effect_ret {s : State} (h : s.sp.val - 1 < 17) : effect .ret s =
    { s with pc := s.slot s.sp.val, sp := ⟨s.sp.val - 1, h⟩ } := by
  have hsp : Fin.ofNat 17 (s.sp.val - 1) = ⟨s.sp.val - 1, h⟩ := Fin.ext (Nat.mod_eq_of_lt h)
  rw [effect, hsp]

/-- Everything an instruction can do (R93, R185): its fault when the condition of R180 holds, its effect otherwise. -/
theorem exec_eq (i : Instr) (s : State) : exec i s = (faultOf i s).elim (.next (effect i s)) fun k => raise k i s := by
  cases i with
  | call nnn =>
    refine eq_elim_of_condition ((execCall_cases nnn s).imp ?_ id)
    rintro ⟨hfree, e⟩
    exact ⟨by omega, by rw [effect_call hfree]; exact e⟩
  | ret =>
    refine eq_elim_of_condition ((execRet_cases s).imp ?_ id)
    rintro ⟨hlive, hlt, e⟩
    exact ⟨by omega, by rw [effect_ret hlt]; exact e⟩
  | ldGlyph x => exact eq_elim_of_condition ((execLdGlyph_cases x s).imp (And.imp_left Nat.not_lt.mpr) id)
  | ldBcd x => exact eq_elim_of_range (execLdBcd_cases x s)
  | storeRegs x => exact eq_elim_of_range (execStoreRegs_cases x s)
  | loadRegs x => exact eq_elim_of_range (execLoadRegs_cases x s)
  | drw x y n => exact eq_elim_of_range (execDrw_cases x y n s)
  | _ => rfl

theorem exec_of_noFault {i : Instr} {s : State} (h : faultOf i s = none) : exec i s = .next (effect i s) := by
  rw [exec_eq, h, Option.elim_none]

theorem exec_of_fault {i : Instr} {s : State} {k : Fault} (h : faultOf i s = some k) :
    exec i s = .next (s.takeFault k (some (encode i))) := by
  rw [exec_eq, h, Option.elim_some, raise]

/-- An instruction's answer is its effect, or its fault taken. -/
theorem exec_next_cases {i : Instr} {s t : State} (h : exec i s = .next t) :
    (faultOf i s = none ∧ t = effect i s) ∨ (∃ k, faultOf i s = some k ∧ t = s.takeFault k (some (encode i))) := by
  cases hf : faultOf i s with
  | none => exact .inl ⟨rfl, Host.Outcome.next.inj (h.symm.trans (exec_of_noFault hf))⟩
  | some k => exact .inr ⟨k, rfl, Host.Outcome.next.inj (h.symm.trans (exec_of_fault hf))⟩

/-! ## Frames -/

/-- An effect changes no part but the ones its instruction may touch. -/
theorem effect_keepsAllBut (i : Instr) (s : State) : KeepsAllBut (touches i) s (effect i s) := by
  cases i
  all_goals apply KeepsAllBut.of_fields <;> simp [touches, effect]

theorem status_notMem_touches (i : Instr) : Part.status ∉ touches i := by cases i <;> simp [touches]

theorem host_notMem_touches (i : Instr) : Part.host ∉ touches i := by cases i <;> simp [touches]

theorem halted_effect (i : Instr) (s : State) : (effect i s).halted = s.halted :=
  (effect_keepsAllBut i s .status (status_notMem_touches i)).1

theorem fault_effect (i : Instr) (s : State) : (effect i s).fault = s.fault :=
  (effect_keepsAllBut i s .status (status_notMem_touches i)).2

theorem input_effect (i : Instr) (s : State) : (effect i s).input = s.input :=
  State.input_of_sameHost (effect_keepsAllBut i s .host (host_notMem_touches i))

/-- Settles O17: the fault is taken when its condition holds, and otherwise the effect keeps the frame. -/
theorem everyInstructionCompletesWithItsFrame : Obligations.EveryInstructionCompletesWithItsFrame := by
  intro i s
  cases hf : faultOf i s with
  | none => exact ⟨_, exec_of_noFault hf, effect_keepsAllBut i s⟩
  | some k => exact ⟨_, exec_of_fault hf, rfl⟩

/-! ## Registers -/

theorem State.reg_keyWait_other {x r : Nibble} (h : r ≠ x) (s : State) (key : Option Nat) : (s.keyWait x key).reg r = s.reg r := by
  cases key with
  | none => rfl
  | some k => rw [State.keyWait_some, State.reg_setReg, if_neg h]

/-- An effect writes no register but the ones its instruction names (R21, R23). -/
theorem reg_effect {i : Instr} {r : Nibble} (h : mayWriteReg r i = false) (s : State) : (effect i s).reg r = s.reg r := by
  by_cases hregs : Part.regs ∈ touches i
  · cases i with
    | drw x y n =>
      have hr : r ≠ 15#4 := by simpa [mayWriteReg] using h
      rw [effect, State.drawSprite_reg, if_neg hr, State.reg_advance]
    | ldKey x =>
      have hr : r ≠ x := by simpa [mayWriteReg] using h
      rw [effect, State.reg_keyWait_other hr, State.reg_advance]
    | loadRegs x =>
      have hr : ¬r.toNat < x.toNat + 1 := by simpa [mayWriteReg, Nat.lt_succ_iff] using h
      rw [effect, State.reg_setRegs_readBytes, if_neg hr, State.reg_advance]
    | _ => simp_all [mayWriteReg, effect, touches]
  · exact effect_keepsAllBut i s .regs hregs r

/-- Settles O18: an effect writes the named registers only, and a fault none. -/
theorem registersWrittenOnlyAsNamed : Obligations.RegistersWrittenOnlyAsNamed := by
  intro i s t r hexec hr
  rcases exec_next_cases hexec with ⟨-, rfl⟩ | ⟨k, -, rfl⟩
  · exact reg_effect hr s
  · exact State.reg_takeFault s k _ r

/-! ## The address of the next instruction -/

theorem State.keyWait_pc (s : State) (x : Nibble) (key : Option Nat) :
    (s.keyWait x key).pc = if key = none then s.pc - 2 else s.pc := by
  cases key <;> rfl

/-- `pc` after an effect is the table of R26. -/
theorem pc_effect (i : Instr) (s : State) : (effect i s).pc = pcAfter i s := by
  cases i with
  | ldKey x =>
    simp only [effect, pcAfter, State.keyWait_pc, firstPressed_none_iff_zero, State.advance_pc, BitVec.add_sub_cancel]
  | skp x | sknp x =>
    simp [effect, pcAfter, State.advance_skipIf_pc, keyIsDown, ← keyPressed_iff, -State.skipIf_pc]
  | seImm x kk | sneImm x kk | seReg x y | sneReg x y =>
    simp [effect, pcAfter, State.advance_skipIf_pc, -State.skipIf_pc]
  | _ => rfl

/-! ## Inputs -/

theorem faultOf_inputs (i : Instr) (s : State) (inputs : List Input) : faultOf i { s with inputs := inputs } = faultOf i s := by
  cases i <;> rfl

/-- An effect reads of the step's input what its instruction reads, and passes the list of inputs on (R95). -/
theorem effect_inputs {i : Instr} {a b : Input} (hkeys : readsKeys i = true → a.keys = b.keys)
    (hrnd : readsRnd i = true → a.rnd = b.rnd) (s : State) (rest : List Input) :
    effect i { s with inputs := b :: rest } = { effect i { s with inputs := a :: rest } with inputs := b :: rest } := by
  cases i with
  | skp x | sknp x | ldKey x =>
    have hk : a.keys = b.keys := hkeys rfl
    simp only [effect, State.input, hk]
    rfl
  | rnd x kk =>
    have hr : a.rnd = b.rnd := hrnd rfl
    simp only [effect, State.input, hr]
    rfl
  | _ => rfl

/-- Settles O16: neither the fault condition nor the effect depends on an input its instruction does not read. -/
theorem unreadInputsDoNotMatter : Obligations.UnreadInputsDoNotMatter := by
  intro i s t a b rest hkeys hrnd hexec
  rcases exec_next_cases hexec with ⟨hf, rfl⟩ | ⟨k, hf, rfl⟩
  · rw [faultOf_inputs] at hf
    rw [exec_of_noFault ((faultOf_inputs i s _).trans hf), effect_inputs hkeys hrnd]
  · rw [faultOf_inputs] at hf
    rw [exec_of_fault ((faultOf_inputs i s _).trans hf)]
    rfl

end Sys2Proof.Machine
end

section
/-! PROOFS. What one step does (40_step_cycle.md, 60_exceptions.md): nothing when halted, the fault of `stepFault`, or the effect of
the decoded instruction and then the tick. -/

namespace Sys2Proof.Machine

/-! ## The three answers of a step -/

/-- No fault: two bytes lie at `pc`, and the decoded instruction's condition does not hold (R190). -/
theorem stepFault_eq_none_iff (s : State) :
    stepFault s = none ↔ s.pc.toNat + 1 < config.memSize ∧ faultOf (decodeWord (wordAtPc s)) s = none := by
  have hpast : beyondMemory s.pc.toNat 2 ↔ ¬s.pc.toNat + 1 < config.memSize := by
    simp only [beyondMemory, config_memSize]; omega
  by_cases hin : s.pc.toNat + 1 < config.memSize
  · rw [stepFault, if_neg (by rw [hpast]; exact not_not.mpr hin), Option.map_eq_none_iff]
    exact (and_iff_right hin).symm
  · rw [stepFault, if_pos (hpast.mpr hin)]
    exact ⟨fun h => absurd h (Option.some_ne_none _), fun h => absurd h.1 hin⟩

theorem step_of_halted {s : State} (h : s.halted = true) : step s = .next s := by rw [step, if_pos h]

/-- A step that faults takes the fault and does nothing else; the recorded word is the fetched one (R187, D22). -/
theorem step_of_fault {s : State} (hrun : s.halted = false) {k : Fault} {o : Option Word} (h : stepFault s = some (k, o)) :
    step s = .next (s.takeFault k o) := by
  rcases s.fetch_cases with ⟨hin, -⟩ | ⟨hpast, -⟩
  · have hnot : ¬beyondMemory s.pc.toNat 2 := by simp only [beyondMemory, config_memSize] at hin ⊢; omega
    rw [stepFault, if_neg hnot, Option.map_eq_some_iff] at h
    obtain ⟨k', hf, heq⟩ := h
    obtain ⟨rfl, rfl⟩ := Prod.mk.inj heq
    rw [step_of_inMemory hrun hin, exec_of_fault hf, finish_next, encodeOfDecode, State.endStep_halted rfl]
  · have hbeyond : beyondMemory s.pc.toNat 2 := by simp only [beyondMemory, config_memSize] at hpast ⊢; omega
    rw [stepFault, if_pos hbeyond] at h
    obtain ⟨rfl, rfl⟩ := Prod.mk.inj (Option.some.inj h)
    exact step_of_pastMemory hrun hpast

/-- The state after a step that runs its instruction to the end: the effect, the tick, the inputs used up (R93, R94). -/
def stepped (s : State) : State := (effect (decodeWord (wordAtPc s)) s).tickTimers.takeInput

theorem step_of_noFault {s : State} (hrun : s.halted = false) (h : stepFault s = none) : step s = .next (stepped s) := by
  obtain ⟨hin, hf⟩ := (stepFault_eq_none_iff s).mp h
  rw [step_of_inMemory hrun hin, exec_of_noFault hf, finish_next, State.endStep_running ((halted_effect _ s).trans hrun), stepped]

/-- Everything a step can answer. -/
theorem step_next_cases {s t : State} (h : step s = .next t) :
    (s.halted = true ∧ t = s) ∨ (s.halted = false ∧ ∃ k o, stepFault s = some (k, o) ∧ t = s.takeFault k o) ∨
    (s.halted = false ∧ stepFault s = none ∧ t = stepped s) := by
  cases hh : s.halted with
  | true => exact .inl ⟨rfl, Host.Outcome.next.inj (h.symm.trans (step_of_halted hh))⟩
  | false =>
    cases hf : stepFault s with
    | none => exact .inr (.inr ⟨rfl, rfl, Host.Outcome.next.inj (h.symm.trans (step_of_noFault hh hf))⟩)
    | some p => exact .inr (.inl ⟨rfl, p.1, p.2, rfl, Host.Outcome.next.inj (h.symm.trans (step_of_fault hh hf))⟩)

/-! ## The fields of `stepped` -/

@[simp] theorem stepped_halted (s : State) : (stepped s).halted = s.halted := halted_effect _ s

@[simp] theorem stepped_fault (s : State) : (stepped s).fault = s.fault := fault_effect _ s

@[simp] theorem stepped_pc (s : State) : (stepped s).pc = pcAfter (decodeWord (wordAtPc s)) s := pc_effect _ s

/-! ## The step -/

/-- Settles O11: the step of a halted core answers the same state, and so does a run of such steps. -/
theorem haltedIsPermanent : Obligations.HaltedIsPermanent := by
  intro s k hhalt
  induction k with
  | zero => exact run_zero s
  | succ k ih => rw [run_succ k (step_of_halted hhalt), ih]

/-- Settles O12: the fetch finds no word. -/
theorem fetchPastMemoryFaults : Obligations.FetchPastMemoryFaults := fun _ hrun hpast => step_of_pastMemory hrun hpast

/-- Settles O13: a step takes its fault or runs to the end, and the effect leaves the halt latch and the record alone. -/
theorem stepFaultsExactlyWhen : Obligations.StepFaultsExactlyWhen := by
  intro s hrun
  cases hf : stepFault s with
  | none => exact ⟨_, step_of_noFault hrun hf, (stepped_halted s).trans hrun, stepped_fault s⟩
  | some p => exact ⟨_, step_of_fault hrun hf, rfl⟩

/-- Settles O14: the effect moves `pc` as the table says, and a fault leaves it. -/
theorem pcAfterEveryStep : Obligations.PcAfterEveryStep := by
  intro s hrun
  cases hf : stepFault s with
  | none => exact ⟨_, step_of_noFault hrun hf, by rw [if_pos rfl, stepped_pc]⟩
  | some p => exact ⟨_, step_of_fault hrun hf, by rw [if_neg (Option.some_ne_none p), State.takeFault_pc]⟩

/-- Settles O15: the tick is the input of the state before the instruction, which passes it on. -/
theorem timersTickAfterTheInstruction : Obligations.TimersTickAfterTheInstruction := by
  intro s t u hrun hf hexec hstep
  obtain ⟨-, hnone⟩ := (stepFault_eq_none_iff s).mp hf
  obtain rfl : u = effect (decodeWord (wordAtPc s)) s := Host.Outcome.next.inj (hexec.symm.trans (exec_of_noFault hnone))
  obtain rfl : t = stepped s := Host.Outcome.next.inj (hstep.symm.trans (step_of_noFault hrun hf))
  rw [← input_effect (decodeWord (wordAtPc s)) s]
  exact ⟨toNat_countDown _ _, toNat_countDown _ _⟩

theorem countDown_eq (tick : Bool) (b : Byte) : countDown tick b = if tick ∧ b ≠ 0 then b - 1 else b := by
  simp only [countDown, Bool.and_eq_true, bne_iff_ne, and_comm]

/-- Settles O9: the fetched word is the two bytes at `pc`, and the end of a step that did not fault is the tick. -/
theorem stepRunsTheDecodedInstruction : Obligations.StepRunsTheDecodedInstruction := by
  rintro s i hrun hin rfl t hexec
  rw [step_of_inMemory hrun hin, wordAtPc, hexec, finish_next]
  cases hh : t.halted with
  | true => rw [State.endStep_halted hh, if_pos rfl]
  | false =>
    rw [State.endStep_running hh, if_neg Bool.false_ne_true, ← countDown_eq, ← countDown_eq, ← hh]
    rfl

/-! ## Invariants of a step -/

theorem inRange_of_noFault {a len : Nat} {k : Fault} (h : (if beyondMemory a len then some k else none) = none) :
    inRange a len = true := by
  by_contra hout
  rw [if_pos ((beyondMemory_iff a len).mpr (Bool.eq_false_iff.mpr hout))] at h
  exact Option.some_ne_none k h

/-- An effect keeps memory in canonical form: only the two stores write memory, within range. -/
theorem wf_mem_effect {i : Instr} {s : State} (hf : faultOf i s = none) (hwf : Memory.wf s.mem = true) :
    Memory.wf (effect i s).mem = true := by
  cases i with
  | ldBcd x => exact Memory.wf_writeBytes_inRange (bcdDigits (s.reg x)) hwf (inRange_of_noFault hf)
  | storeRegs x =>
    exact Memory.wf_writeBytes_inRange (s.regsUpTo x) hwf (by rw [State.length_regsUpTo]; exact inRange_of_noFault hf)
  | _ => exact hwf

/-- Settles O54: a fault sets the latch and the record together and leaves memory alone; an effect leaves latch and record alone. -/
theorem stepKeepsInvariant : Obligations.StepKeepsInvariant := by
  rintro s t ⟨hwf, hlatch⟩ hstep
  rcases step_next_cases hstep with ⟨-, rfl⟩ | ⟨-, k, o, -, rfl⟩ | ⟨-, hf, rfl⟩
  · exact ⟨hwf, hlatch⟩
  · exact ⟨hwf, rfl⟩
  · obtain ⟨-, hnone⟩ := (stepFault_eq_none_iff s).mp hf
    exact ⟨wf_mem_effect hnone hwf, by rw [stepped_halted, stepped_fault, hlatch]⟩

/-- Settles O53: no cell is listed, the core runs and nothing is recorded. -/
theorem invariantAtReset : Obligations.InvariantAtReset := ⟨Memory.wf_nil, rfl⟩


/-! ## The bound on `pc` and the return addresses -/

theorem toNat_pc_add_le (a : Word) (n : Nat) : (a + BitVec.ofNat 16 n).toNat ≤ a.toNat + n := by
  rw [BitVec.toNat_add, BitVec.toNat_ofNat]
  omega

/-- The advance and a skip taken move `pc` from inside memory to at most 4098. -/
theorem pcInBound_add_two {a : Word} (h : a.toNat + 1 < config.memSize) : (a + 2).toNat ≤ 0x10FE := by
  have := toNat_pc_add_le a 2
  simp only [config_memSize] at h
  exact this.trans (by omega)

theorem pcInBound_add_four {a : Word} (h : a.toNat + 1 < config.memSize) : (a + 4).toNat ≤ 0x10FE := by
  have := toNat_pc_add_le a 4
  simp only [config_memSize] at h
  exact this.trans (by omega)

/-- Every target of the table of R26 is within the bound: the widest is `JP V0` with 0xFFF + 0xFF. -/
theorem pcInBound_pcAfter (i : Instr) {s : State} (hin : s.pc.toNat + 1 < config.memSize)
    (hslot : ∀ k, (s.slot k).toNat ≤ config.memSize) : (pcAfter i s).toNat ≤ 0x10FE := by
  have h2 := pcInBound_add_two hin
  have h4 := pcInBound_add_four hin
  have haddr (nnn : Addr) : (addrOperand nnn).toNat ≤ 0xFFF := by
    rw [toNat_addrOperand]; exact Nat.le_of_lt_succ nnn.isLt
  cases i with
  | jp nnn | call nnn => exact (haddr nnn).trans (by decide)
  | ret => exact (hslot s.sp.val).trans (by decide)
  | jpV0 nnn =>
    have hsum : (addrOperand nnn + zextByte (s.reg 0)).toNat ≤ (addrOperand nnn).toNat + (s.reg 0).toNat := by
      rw [BitVec.toNat_add, toNat_zextByte]; exact Nat.mod_le _ _
    have := haddr nnn
    have := (s.reg 0).isLt
    exact hsum.trans (by omega)
  | seImm x kk | sneImm x kk | seReg x y | sneReg x y | skp x | sknp x =>
    simp only [pcAfter]
    split <;> assumption
  | ldKey x =>
    simp only [pcAfter]
    split
    · simp only [config_memSize] at hin; omega
    · exact h2
  | _ => exact h2

/-- A push within the stack writes the slot of the new depth; one beyond it writes nothing (R28). -/
theorem slot_setIfInBounds (s : State) (n k : Nat) (w : Word) :
    State.slot { s with stack := s.stack.setIfInBounds n w } k = if k = n + 1 ∧ n < 16 then w else s.slot k := by
  by_cases hn : n < 16
  · rw [s.slot_set n k w hn _ (setIfInBounds_eq_set s.stack w hn)]
    simp only [hn, and_true]
  · rw [Vector.setIfInBounds_eq_of_size_le (Nat.le_of_not_lt hn), if_neg fun h => hn h.2]

/-- A return address is the address after a call inside memory. -/
theorem slotInBound_effect (i : Instr) {s : State} (hin : s.pc.toNat + 1 < config.memSize)
    (hslot : ∀ k, (s.slot k).toNat ≤ config.memSize) (k : Nat) : ((effect i s).slot k).toNat ≤ config.memSize := by
  by_cases hstack : Part.stack ∈ touches i
  · cases i with
    | call nnn =>
      show (State.slot { s with stack := s.stack.setIfInBounds s.sp.val (s.pc + 2) } k).toNat ≤ config.memSize
      rw [slot_setIfInBounds]
      split
      · exact (toNat_pc_add_le s.pc 2).trans hin
      · exact hslot k
    | ret => exact hslot k
    | _ => simp [touches] at hstack
  · rw [(effect_keepsAllBut i s .stack hstack).2 k]
    exact hslot k

/-- Settles O56: a fault leaves `pc` and the stack, and an effect starts from a `pc` inside memory. -/
theorem stepKeepsPcBound : Obligations.StepKeepsPcBound := by
  rintro s t ⟨hpc, hslot⟩ hstep
  rcases step_next_cases hstep with ⟨-, rfl⟩ | ⟨-, k, o, -, rfl⟩ | ⟨-, hf, rfl⟩
  · exact ⟨hpc, hslot⟩
  · exact ⟨hpc, hslot⟩
  · obtain ⟨hin, -⟩ := (stepFault_eq_none_iff s).mp hf
    exact ⟨stepped_pc s ▸ pcInBound_pcAfter _ hin hslot, slotInBound_effect _ hin hslot⟩

/-! ## Dead slots -/

/-- `other` holds the live return addresses of `s` (R28, D28). -/
def SameLiveSlots (s : State) (other : Vector Word 16) : Prop :=
  ∀ k ≤ s.sp.val, State.slot { s with stack := other } k = s.slot k

theorem faultOf_stack (i : Instr) (s : State) (other : Vector Word 16) :
    faultOf i { s with stack := other } = faultOf i s := by
  cases i <;> rfl

theorem stepFault_stack (s : State) (other : Vector Word 16) : stepFault { s with stack := other } = stepFault s := by
  show (if beyondMemory s.pc.toNat 2 then _ else
    (faultOf (decodeWord (wordAtPc s)) { s with stack := other }).map fun k => (k, some (wordAtPc s))) = _
  rw [faultOf_stack, stepFault]

/-- An effect answers the same from two stacks with the same live slots, but for the stack, whose live slots are again the same. -/
theorem effect_stack (i : Instr) {s : State} {other : Vector Word 16} (h : SameLiveSlots s other) :
    ∃ other', effect i { s with stack := other } = { effect i s with stack := other' } ∧ SameLiveSlots (effect i s) other' := by
  cases i with
  | call nnn =>
    refine ⟨other.setIfInBounds s.sp.val (s.pc + 2), rfl, fun k hk => ?_⟩
    show State.slot { ({ s with stack := other } : State) with stack := other.setIfInBounds s.sp.val (s.pc + 2) } k =
      State.slot { s with stack := s.stack.setIfInBounds s.sp.val (s.pc + 2) } k
    rw [slot_setIfInBounds { s with stack := other }, slot_setIfInBounds s]
    split
    · rfl
    · have hdepth : k ≤ (s.sp.val + 1) % 17 := hk
      exact h k (by omega)
  | ret =>
    refine ⟨other, by rw [effect, h s.sp.val (Nat.le_refl _)]; rfl, fun k hk => h k ?_⟩
    have hdepth : k ≤ (s.sp.val - 1) % 17 := hk
    omega
  | _ => exact ⟨other, rfl, h⟩

/-- Settles O57: the fault condition does not read the stack, and the effect reads the live slots only. -/
theorem deadSlotsAreNeverRead : Obligations.DeadSlotsAreNeverRead := by
  intro s t other hlive hstep
  rcases step_next_cases hstep with ⟨hhalt, rfl⟩ | ⟨hrun, k, o, hf, rfl⟩ | ⟨hrun, hf, rfl⟩
  · exact ⟨other, step_of_halted hhalt, hlive⟩
  · exact ⟨other, step_of_fault (s := { s with stack := other }) hrun ((stepFault_stack s other).trans hf), hlive⟩
  · obtain ⟨other', heffect, hlive'⟩ := effect_stack (decodeWord (wordAtPc s)) hlive
    have hstep' := step_of_noFault (s := { s with stack := other }) hrun ((stepFault_stack s other).trans hf)
    refine ⟨other', hstep'.trans (congrArg _ ?_), hlive'⟩
    calc stepped { s with stack := other }
        = (effect (decodeWord (wordAtPc s)) { s with stack := other }).tickTimers.takeInput := rfl
      _ = { stepped s with stack := other' } := by rw [heffect]; rfl

end Sys2Proof.Machine
end

section
/-! PROOFS. `SYS`, `JP V0`, `LD Vx, Vy`, `ADD I, Vx`, `RND` and the flag-producing ALU instructions (R100, R104, R124, R128 to R132,
R141, R150). -/

namespace Sys2Proof.Machine

/-! ## One write -/

/-- Settles O19: the effect is the advance alone. -/
theorem sysOnlyAdvancesPc : Obligations.SysOnlyAdvancesPc := fun op nnn s =>
  ⟨_, exec_of_noFault (i := .sys op nnn) rfl, rfl, effect_keepsAllBut (.sys op nnn) s⟩

/-- Settles O23: the sum of a 12-bit and an 8-bit number fits in 16 bits. -/
theorem jpV0AddsRegisterZero : Obligations.JpV0AddsRegisterZero := by
  refine fun nnn s => ⟨_, exec_of_noFault (i := .jpV0 nnn) rfl, ?_, effect_keepsAllBut (.jpV0 nnn) s⟩
  have hnnn := nnn.isLt
  have hreg := (s.reg 0).isLt
  rw [effect, State.setPc_pc, BitVec.toNat_add, toNat_addrOperand, toNat_zextByte, Nat.mod_eq_of_lt (by omega)]

/-- Settles O28: an advance and a copy. -/
theorem loadRegisterCopies : Obligations.LoadRegisterCopies := fun x y _ =>
  writesReg_of_exec (exec_of_noFault (i := .ldReg x y) rfl)

/-- Settles O34: an advance and a write of the 16-bit sum, which is the sum modulo 65536. -/
theorem addToAddressRegister : Obligations.AddToAddressRegister := by
  intro x s
  obtain ⟨t, hexec, hi, hframe⟩ := writesI_of_exec (exec_of_noFault (i := .addI x) (s := s) rfl)
  exact ⟨t, hexec, by rw [hi, BitVec.toNat_add, toNat_zextByte], hframe⟩

/-- Settles O40: an advance and a write of the masked input. -/
theorem randomByteIsMasked : Obligations.RandomByteIsMasked := by
  intro x kk s
  obtain ⟨t, hexec, hx, hframe⟩ := writesReg_of_exec (exec_of_noFault (i := .rnd x kk) (s := s) rfl)
  exact ⟨t, hexec, fun k _ => by rw [hx, BitVec.getLsbD_and], hframe⟩

/-! ## A result and a flag -/

theorem State.advance_writeFlagged_keepsAllBut (s : State) (x : Nibble) (c : Bool) (b : Byte) :
    KeepsAllBut [.pc, .regs] s (s.advance.writeFlagged x c b) := by
  apply KeepsAllBut.of_fields <;> simp

/-- An instruction that advances and then writes a flag and a result (R121). -/
theorem writesFlagged_of_exec {i : Instr} {s : State} {x : Nibble} {c : Bool} {b : Byte}
    (h : exec i s = .next (s.advance.writeFlagged x c b)) :
    ∃ t, exec i s = .next t ∧ t.reg x = b ∧ (x ≠ 15 → t.reg 15 = flagByte c) ∧
      (∀ r, r ≠ x → r ≠ 15 → t.reg r = s.reg r) ∧ t.pc = s.pc + 2 ∧ KeepsAllBut [.pc, .regs] s t := by
  refine ⟨_, h, ?_, fun hx => ?_, fun r hx h15 => ?_, rfl, s.advance_writeFlagged_keepsAllBut x c b⟩
  · rw [State.reg_writeFlagged, if_pos rfl]
  · rw [State.reg_writeFlagged, if_neg (Ne.symm hx)]
    exact if_pos rfl
  · rw [State.reg_writeFlagged, if_neg hx, State.reg_advance]
    exact if_neg h15

theorem flagByte_decide (p : Prop) [Decidable p] : flagByte (decide p) = if p then 1 else 0 := by
  simp only [flagByte, decide_eq_true_eq]

theorem toNat_flagByte_getLsbD (b : Byte) (k : Nat) : (flagByte (b.getLsbD k)).toNat = b.toNat / 2 ^ k % 2 := by
  rw [BitVec.getLsbD, Nat.testBit_eq_decide_div_mod_eq, flagByte_decide]
  split
  · next h => exact h.symm
  · next h => exact (Nat.mod_two_ne_one.mp h).symm

/-- Settles O30: the flag is the carry out of the 8-bit sum. -/
theorem addRegisterSetsCarry : Obligations.AddRegisterSetsCarry := by
  intro x y s
  obtain ⟨t, hexec, hx, hflag, hframe⟩ := writesFlagged_of_exec (exec_of_noFault (i := .addReg x y) (s := s) rfl)
  exact ⟨t, hexec, by rw [hx, BitVec.toNat_add], fun h15 => (hflag h15).trans (flagByte_decide _), hframe⟩

theorem toNat_sub_byte (a b : Byte) : (a - b).toNat = (a.toNat + 256 - b.toNat) % 256 := by
  have hb := b.isLt
  rw [BitVec.toNat_sub]
  congr 1
  omega

/-- Settles O31: the flag is that the subtraction needs no borrow. -/
theorem subtractionsSetNoBorrow : Obligations.SubtractionsSetNoBorrow := by
  refine fun x y s => ⟨?_, ?_⟩
  · obtain ⟨t, hexec, hx, hflag, hframe⟩ := writesFlagged_of_exec (exec_of_noFault (i := .sub x y) (s := s) rfl)
    exact ⟨t, hexec, by rw [hx, toNat_sub_byte], fun h15 => (hflag h15).trans (flagByte_decide _), hframe⟩
  · obtain ⟨t, hexec, hx, hflag, hframe⟩ := writesFlagged_of_exec (exec_of_noFault (i := .subn x y) (s := s) rfl)
    exact ⟨t, hexec, by rw [hx, toNat_sub_byte], fun h15 => (hflag h15).trans (flagByte_decide _), hframe⟩

/-- Settles O32: the flag is bit 0 or bit 7 of the register before the shift. -/
theorem shiftsMoveABitOut : Obligations.ShiftsMoveABitOut := by
  refine fun x y s => ⟨?_, ?_⟩
  · obtain ⟨t, hexec, hx, hflag, hframe⟩ := writesFlagged_of_exec (exec_of_noFault (i := .shr x y) (s := s) rfl)
    refine ⟨t, hexec, by rw [hx, BitVec.toNat_ushiftRight, Nat.shiftRight_eq_div_pow, Nat.pow_one], fun h15 => ?_, hframe⟩
    rw [hflag h15, shiftOutRight, toNat_flagByte_getLsbD, Nat.pow_zero, Nat.div_one]
  · obtain ⟨t, hexec, hx, hflag, hframe⟩ := writesFlagged_of_exec (exec_of_noFault (i := .shl x y) (s := s) rfl)
    refine ⟨t, hexec, by rw [hx, BitVec.toNat_shiftLeft, Nat.shiftLeft_eq, Nat.pow_one], fun h15 => ?_, hframe⟩
    have hlt := (s.reg x).isLt
    rw [hflag h15, shiftOutLeft, toNat_flagByte_getLsbD]
    omega

end Sys2Proof.Machine
end

section
/-! PROOFS. The key instructions (47_keys.md, R167 to R169). -/

namespace Sys2Proof.Machine

/-- Settles O44: both are an advance and a skip, on the key down and on the key not down. -/
theorem keyQueriesSkip : Obligations.KeyQueriesSkip := by
  refine fun x s => ⟨skipsWhen_of_exec (keyPressed_iff _ _) (exec_of_noFault (i := .skp x) rfl),
    skipsUnless_of_exec ?_ (exec_of_noFault (i := .sknp x) rfl)⟩
  rw [← keyPressed_iff, Bool.not_eq_true, Bool.not_eq_true']

theorem State.advance_setPc_back (s : State) : s.advance.setPc (s.advance.pc - 2) = s := by
  rw [State.advance_pc, BitVec.add_sub_cancel]
  rfl

/-- The key wait with no key down: nothing changes (R169). -/
theorem effect_ldKey_of_noKey {s : State} (x : Nibble) (h : s.input.keys = 0) : effect (.ldKey x) s = s := by
  rw [effect, (firstPressed_none_iff_zero _).mpr h, State.keyWait_none, State.advance_setPc_back]

/-- Settles O45: with no key the scan finds none and `pc` goes back; with keys it finds the lowest, and its number is written. -/
theorem keyWaitSpinsOrStores : Obligations.KeyWaitSpinsOrStores := by
  refine fun x s => ⟨fun hnone => ⟨s, ?_, KeepsAllBut.refl [] s⟩, fun k hk hdown hlower => ?_⟩
  · rw [exec_of_noFault rfl, effect_ldKey_of_noKey x hnone]
  · have hscan : firstPressed s.input.keys = some k := (firstPressed_some_iff _ k).mpr ⟨hk, hdown, hlower⟩
    have heffect : exec (.ldKey x) s = .next (s.advance.setReg x (BitVec.ofNat 8 k)) := by
      rw [exec_of_noFault rfl, effect, hscan, State.keyWait_some]
    obtain ⟨t, hexec, hx, hframe⟩ := writesReg_of_exec heffect
    exact ⟨t, hexec, by rw [hx, BitVec.toNat_ofNat, Nat.mod_eq_of_lt (by omega)], hframe⟩

end Sys2Proof.Machine
end

section
/-! PROOFS. Runs of an idle core (47_keys.md, R169; 41_control_transfer.md, R101, R226): the decoded instruction leaves the state as it
is, and each step only counts the timers and takes an input. -/

namespace Sys2Proof.Machine

/-! ## A step that only ticks -/

/-- The state after a step whose instruction changes nothing. -/
def idled (s : State) : State := s.tickTimers.takeInput

theorem idled_keepsAllBut (s : State) : KeepsAllBut [.delayTimer, .soundTimer, .host] s (idled s) := by
  apply KeepsAllBut.of_fields <;> simp [idled]

theorem step_of_idle {s : State} (hrun : s.halted = false) (hfault : stepFault s = none)
    (hidle : effect (decodeWord (wordAtPc s)) s = s) : step s = .next (idled s) := by
  rw [step_of_noFault hrun hfault, stepped, hidle, idled]

theorem toNat_idled_dt (s : State) : (idled s).dt.toNat = s.dt.toNat - (if s.input.tick then 1 else 0) := toNat_countDown _ _

theorem toNat_idled_st (s : State) : (idled s).st.toNat = s.st.toNat - (if s.input.tick then 1 else 0) := toNat_countDown _ _

theorem idled_inputs (s : State) : (idled s).inputs = s.inputs.tail := rfl

theorem idled_drawn (s : State) : (idled s).drawn = s.drawn + 1 := rfl

/-! ## The key wait -/

theorem step_keyWait {x : Nibble} {s : State} (hrun : s.halted = false) (hin : s.pc.toNat + 1 < config.memSize)
    (hdec : decodeWord (wordAtPc s) = .ldKey x) (hnone : s.input.keys = 0) : step s = .next (idled s) :=
  step_of_idle hrun ((stepFault_eq_none_iff s).mpr ⟨hin, by rw [hdec]; rfl⟩)
    (by rw [hdec, effect_ldKey_of_noKey x hnone])

/-- Settles O46, by induction on the number of steps: each takes the first of the settled inputs. -/
theorem keyWaitSpinsWhileNoKeyIsDown : Obligations.KeyWaitSpinsWhileNoKeyIsDown := by
  intro x s n hrun hin hdec hlen hnone
  induction n generalizing s with
  | zero =>
    exact ⟨s, run_zero s, KeepsAllBut.refl _ s, by simp, by simp, rfl, rfl⟩
  | succ n ih =>
    obtain ⟨inp, rest, hinputs⟩ := List.exists_cons_of_length_pos (Nat.lt_of_lt_of_le (Nat.succ_pos n) hlen)
    have hinput : s.input = inp := by rw [State.input, hinputs]
    have hrest : (idled s).inputs = rest := by rw [idled_inputs, hinputs, List.tail_cons]
    rw [hinputs, List.take_succ_cons, List.forall_mem_cons] at hnone
    have hstep : step s = .next (idled s) := step_keyWait hrun hin hdec (hinput ▸ hnone.1)
    have hlen' : n ≤ (idled s).inputs.length := by rw [hinputs] at hlen; rw [hrest]; exact Nat.le_of_succ_le_succ hlen
    obtain ⟨t, hrunT, hframe, hdt, hst, hinp, hdrawn⟩ := ih (idled s) hrun hin hdec hlen' (hrest ▸ hnone.2)
    rw [hrest, toNat_idled_dt, hinput, Nat.sub_sub, Nat.add_comm] at hdt
    rw [hrest, toNat_idled_st, hinput, Nat.sub_sub, Nat.add_comm] at hst
    refine ⟨t, (run_succ n hstep).trans hrunT, (idled_keepsAllBut s).trans hframe, ?_, ?_, ?_, ?_⟩
    · rw [hdt, hinputs, List.take_succ_cons, List.countP_cons]
    · rw [hst, hinputs, List.take_succ_cons, List.countP_cons]
    · rw [hinp, hrest, hinputs, List.drop_succ_cons]
    · rw [hdrawn, idled_drawn, Nat.add_assoc, Nat.add_comm 1 n]

/-! ## The jump to itself -/

/-- The end-of-run convention D32, in terms of the decoded word. -/
theorem atSelfJump_iff (s : State) : atSelfJump s = true ↔ s.halted = false ∧ s.pc.toNat + 1 < config.memSize ∧
    ∃ nnn, decodeWord (wordAtPc s) = .jp nnn ∧ addrOperand nnn = s.pc := by
  rcases s.fetch_cases with ⟨hin, hfetch⟩ | ⟨hpast, hfetch⟩
  · simp only [atSelfJump, hfetch, hin, true_and, Bool.and_eq_true, Bool.not_eq_true']
    refine and_congr_right fun _ => ?_
    split
    · next nnn hdec => simp [hdec]
    · next hne => exact ⟨fun h => absurd h Bool.false_ne_true, fun ⟨nnn, hdec, _⟩ => absurd hdec (hne nnn)⟩
  · have hout : ¬s.pc.toNat + 1 < config.memSize := Nat.not_lt.mpr hpast
    simp only [atSelfJump, hfetch, Bool.and_false, Bool.false_eq_true, hout, false_and, and_false]

theorem step_selfJump {s : State} (h : atSelfJump s = true) : step s = .next (idled s) := by
  obtain ⟨hrun, hin, nnn, hdec, htarget⟩ := (atSelfJump_iff s).mp h
  refine step_of_idle hrun ((stepFault_eq_none_iff s).mpr ⟨hin, by rw [hdec]; rfl⟩) ?_
  rw [hdec, effect, htarget]
  rfl

/-- Settles O52, by induction on the number of steps: the jump to itself is still there after each. -/
theorem selfJumpOnlyCountsTimers : Obligations.SelfJumpOnlyCountsTimers := by
  intro s k h
  induction k generalizing s with
  | zero => exact ⟨s, run_zero s, h, KeepsAllBut.refl _ s⟩
  | succ k ih =>
    have hidled : atSelfJump (idled s) = true := (atSelfJump_iff _).mpr ((atSelfJump_iff s).mp h)
    obtain ⟨t, hrun, hself, hframe⟩ := ih (idled s) hidled
    exact ⟨t, (run_succ k (step_selfJump h)).trans hrun, hself, (idled_keepsAllBut s).trans hframe⟩

end Sys2Proof.Machine
end

section
/-! PROOFS. `DRW` (46_display.md, R156, R157): the sprite lights the pixels where one of its bits is 1; a draw flips exactly those. -/

namespace Sys2Proof.Machine

/-! ## The pixels of a sprite -/

/-- A bit of the sprite that is 1 falls on the pixel. -/
def SpriteLights (bx top : Byte) (bs : List Byte) (cx : Fin 64) (cy : Fin 32) : Prop :=
  ∃ r col, r < bs.length ∧ col < 8 ∧ drawColumn bx col = cx ∧ drawLine top r = cy ∧ spriteBit (bs.getD r 0) col = true

section
variable {bx top : Byte} {bs : List Byte} (hlen : bs.length ≤ 15)
include hlen

/-- A draw flips the pixels the sprite lights, and no other (R157 (a)). -/
theorem State.drawSprite_pixel (s : State) (cx : Fin 64) (cy : Fin 32) [Decidable (SpriteLights bx top bs cx cy)] :
    (s.drawSprite bx top bs).pixel cx cy = (s.pixel cx cy ^^ decide (SpriteLights bx top bs cx cy)) := by
  by_cases hon : ∃ r col, r < bs.length ∧ col < 8 ∧ drawColumn bx col = cx ∧ drawLine top r = cy
  · obtain ⟨r, col, hr, hcol, rfl, rfl⟩ := hon
    have hlights : SpriteLights bx top bs (drawColumn bx col) (drawLine top r) ↔ spriteBit (bs.getD r 0) col = true := by
      refine ⟨fun ⟨r', col', hr', hcol', hx, hy, hbit⟩ => ?_, fun hbit => ⟨r, col, hr, hcol, rfl, rfl, hbit⟩⟩
      rwa [← drawColumn_injective bx hcol' hcol hx, ← drawLine_injective top (by omega) (by omega) hy]
    rw [State.drawSprite_pixel_target s bx top bs hlen hr hcol, Bool.eq_iff_iff.mpr (decide_eq_true_iff.trans hlights)]
  · have hoff : ¬SpriteLights bx top bs cx cy := fun ⟨r, col, hr, hcol, hx, hy, _⟩ => hon ⟨r, col, hr, hcol, hx, hy⟩
    rw [decide_eq_false hoff, Bool.xor_false]
    exact State.drawSprite_pixel_other s bx top bs cx cy fun r col hr hcol hpos => hon ⟨r, col, hr, hcol, hpos⟩

/-- `VF` after a draw is 1 exactly when the sprite lights a pixel that was 1 (R157 (b)). -/
theorem State.drawSprite_vf_eq_one_iff (s : State) :
    (s.drawSprite bx top bs).reg 15 = 1 ↔ ∃ cx cy, s.pixel cx cy = true ∧ SpriteLights bx top bs cx cy := by
  have hflag : (s.drawSprite bx top bs).reg 15 = 1 ↔ (drawRows bx top 0 bs (s.fb, false)).2 = true := by
    rw [State.drawSprite_reg]
    cases (drawRows bx top 0 bs (s.fb, false)).2 <;> simp [flagByte]
  rw [hflag, drawRows_collision s.fb bx top bs hlen]
  constructor
  · rintro ⟨r, col, hr, hcol, hpixel, hbit⟩
    exact ⟨_, _, hpixel, r, col, hr, hcol, rfl, rfl, hbit⟩
  · rintro ⟨_, _, hpixel, r, col, hr, hcol, rfl, rfl, hbit⟩
    exact ⟨r, col, hr, hcol, hpixel, hbit⟩

end

/-! ## The instruction -/

/-- The sprite of a draw: `n` bytes from `I` on. -/
def spriteAtI (s : State) (n : Nibble) : List Byte := Memory.readBytes s.mem s.i.toNat n.toNat

theorem length_spriteAtI (s : State) (n : Nibble) : (spriteAtI s n).length = n.toNat := Memory.length_readBytes _ _ _

theorem length_spriteAtI_le (s : State) (n : Nibble) : (spriteAtI s n).length ≤ 15 := by
  rw [length_spriteAtI]; exact Nat.le_of_lt_succ n.isLt

theorem getD_spriteAtI (s : State) {n : Nibble} {r : Nat} (h : r < n.toNat) :
    (spriteAtI s n).getD r 0 = s.memByte (s.i.toNat + r) := by
  rw [spriteAtI, Memory.getD_readBytes, if_pos h, State.memByte]

theorem effect_drw (x y n : Nibble) (s : State) :
    effect (.drw x y n) s = s.advance.drawSprite (s.reg x) (s.reg y) (spriteAtI s n) := rfl

theorem faultOf_drw_eq_none_iff (x y n : Nibble) (s : State) :
    faultOf (.drw x y n) s = none ↔ n.toNat = 0 ∨ s.i.toNat + n.toNat ≤ config.memSize := by
  rw [← inRange_iff, ← Bool.not_eq_false, ← beyondMemory_iff, faultOf, ite_eq_right_iff]
  exact forall_congr' fun _ => iff_false_intro (Option.some_ne_none _)

theorem eq_drawColumn_iff (bx : Byte) (col : Nat) (cx : Fin 64) : cx.val = (bx.toNat + col) % 64 ↔ drawColumn bx col = cx := by
  rw [Fin.ext_iff, eq_comm]; rfl

theorem eq_drawLine_iff (top : Byte) (row : Nat) (cy : Fin 32) : cy.val = (top.toNat + row) % 32 ↔ drawLine top row = cy := by
  rw [Fin.ext_iff, eq_comm]; rfl

/-- A draw that turns pixels from 1 to 0 is one whose sprite lights pixels that were 1. -/
theorem exists_erased_iff {bx top : Byte} {bs : List Byte} (hlen : bs.length ≤ 15) (s : State) :
    (∃ cx cy, s.pixel cx cy = true ∧ (s.drawSprite bx top bs).pixel cx cy = false) ↔
      ∃ cx cy, s.pixel cx cy = true ∧ SpriteLights bx top bs cx cy := by
  classical
  refine exists_congr fun cx => exists_congr fun cy => and_congr_right fun hpixel => ?_
  rw [State.drawSprite_pixel hlen, hpixel, Bool.true_xor, Bool.not_eq_false', decide_eq_true_eq]

/-- Settles O42: the sprite's own pixels, the others, and `VF` are each said by a law of `State.drawSprite`. -/
theorem drawSpriteXorsPixels : Obligations.DrawSpriteXorsPixels := by
  intro x y n s
  refine ⟨fun hrange => ?_, fun hpos hpast => ?_⟩
  · have hlen := length_spriteAtI_le s n
    refine ⟨_, exec_of_noFault ((faultOf_drw_eq_none_iff x y n s).mpr hrange), ?_, ?_, ?_, ?_, ?_, pc_effect (.drw x y n) s,
      effect_keepsAllBut (.drw x y n) s⟩
    · intro row col cx cy hrow hcol hcx hcy
      obtain rfl := (eq_drawColumn_iff _ _ _).mp hcx
      obtain rfl := (eq_drawLine_iff _ _ _).mp hcy
      rw [← getD_spriteAtI s hrow]
      exact State.drawSprite_pixel_target s.advance _ _ _ hlen (by rwa [length_spriteAtI]) hcol
    · intro cx cy hoff
      refine State.drawSprite_pixel_other s.advance _ _ _ cx cy fun row col hrow hcol ⟨hcx, hcy⟩ => ?_
      rw [Memory.length_readBytes] at hrow
      exact hoff row col hrow hcol ⟨(eq_drawColumn_iff _ _ _).mpr hcx, (eq_drawLine_iff _ _ _).mpr hcy⟩
    · rw [effect_drw, State.drawSprite_reg]
      exact flagByte_cases _
    · exact (State.drawSprite_vf_eq_one_iff hlen s.advance).trans (exists_erased_iff hlen s.advance).symm
    · intro r hr
      exact reg_effect (by simpa [mayWriteReg] using hr) s
  · have hfault : faultOf (.drw x y n) s = some .memoryOutOfBounds := if_pos ⟨hpos, by omega⟩
    exact raises_of_exec (exec_of_fault hfault)

/-- A draw leaves in place what the same draw reads again, when the coordinates are unchanged. -/
theorem effect_drw_again {x y : Nibble} (n : Nibble) {s t : State} (ht : t = effect (.drw x y n) s) (hx : t.reg x = s.reg x)
    (hy : t.reg y = s.reg y) : effect (.drw x y n) t = t.advance.drawSprite (s.reg x) (s.reg y) (spriteAtI s n) := by
  have hsprite : spriteAtI t n = spriteAtI s n := by rw [ht]; rfl
  rw [effect_drw, hx, hy, hsprite]

/-- Settles O43: the second draw has the same sprite at the same place, so it flips the same pixels back, and the ones it finds at 1
are those the first draw lit. -/
theorem doubleDrawRestoresTheScreen : Obligations.DoubleDrawRestoresTheScreen := by
  intro x y n s t u _ hst hlive hx hy htu
  rcases exec_next_cases hst with ⟨hnone, ht⟩ | ⟨k, -, rfl⟩
  · have hlen := length_spriteAtI_le s n
    have hnone' : faultOf (.drw x y n) t = none := by rw [ht]; exact hnone
    have hu : u = t.advance.drawSprite (s.reg x) (s.reg y) (spriteAtI s n) :=
      (Host.Outcome.next.inj (htu.symm.trans (exec_of_noFault hnone'))).trans (effect_drw_again n ht hx hy)
    classical
    have hfirst (cx cy) : t.pixel cx cy = (s.pixel cx cy ^^ decide (SpriteLights (s.reg x) (s.reg y) (spriteAtI s n) cx cy)) := by
      rw [ht]; exact State.drawSprite_pixel hlen s.advance cx cy
    have hsecond (cx cy) : u.pixel cx cy = (t.pixel cx cy ^^ decide (SpriteLights (s.reg x) (s.reg y) (spriteAtI s n) cx cy)) := by
      rw [hu]; exact State.drawSprite_pixel hlen t.advance cx cy
    have hflag : u.reg 15 = 1 ↔ ∃ cx cy, t.pixel cx cy = true ∧ SpriteLights (s.reg x) (s.reg y) (spriteAtI s n) cx cy := by
      rw [hu]; exact State.drawSprite_vf_eq_one_iff hlen t.advance
    refine ⟨fun cx cy => ?_, hflag.trans (exists_congr fun cx => exists_congr fun cy => ?_)⟩
    · rw [hsecond, hfirst, Bool.xor_assoc, Bool.xor_self, Bool.xor_false]
    · rw [hfirst]
      by_cases h : SpriteLights (s.reg x) (s.reg y) (spriteAtI s n) cx cy <;> simp [h]
  · exact absurd hlive Bool.noConfusion

end Sys2Proof.Machine
end

section
/-! PROOFS. Stores and the fetch that follows them (20_memory.md, R53, R65; 44_address_and_memory.md, R143, R144). -/

namespace Sys2Proof.Machine

theorem State.fetch_at (t : State) {target : Word} (h : target.toNat + 1 < config.memSize) :
    State.fetch { t with pc := target } = some (t.memByte target.toNat ++ t.memByte (target.toNat + 1)) :=
  State.fetch_of_inMemory (s := { t with pc := target }) h

/-- Settles O39: the halves of a fetched word are the bytes of memory, among them the stored ones. -/
theorem storedBytesAreFetched : Obligations.StoredBytesAreFetched := by
  intro x s t target hwf htarget
  refine ⟨fun hrange hexec => ⟨_, _, t.fetch_at htarget, fun k hk => ?_⟩,
    fun hrange hexec => ⟨_, _, t.fetch_at htarget, fun k hk => ?_⟩⟩
  · obtain ⟨t', hexec', hbytes, -⟩ := (storeRegistersToMemory x s hwf).2.1 hrange
    obtain rfl : t' = t := Host.Outcome.next.inj (hexec'.symm.trans hexec)
    exact ⟨fun h => h ▸ hbytes k hk, fun h => h ▸ hbytes k hk⟩
  · have hstore : exec (.ldBcd x) s = .next { s.advance with mem := Memory.writeBytes s.mem s.i.toNat (bcdDigits (s.reg x)) } := by
      refine exec_of_noFault (if_neg ?_)
      rintro ⟨-, hpast⟩
      exact absurd hrange (Nat.not_lt.mpr hpast)
    obtain ⟨t', hexec', hbytes, -⟩ := storesBytes_of_exec (bs := bcdDigits (s.reg x)) hwf hrange hstore
    obtain rfl : t' = t := Host.Outcome.next.inj (hexec'.symm.trans hexec)
    have hdigit : (t'.memByte (s.i.toNat + k)).toNat = (s.reg x).toNat / 10 ^ (2 - k) % 10 := by
      rw [hbytes k hk, toNat_getD_bcdDigits _ hk]
    exact ⟨fun h => h ▸ hdigit, fun h => h ▸ hdigit⟩

end Sys2Proof.Machine
end

section
/-! PROOFS. Reset, launch and the placing of one word (10_state.md, R44; 70_reset_and_hazards.md, R210, R216, R218). -/

namespace Sys2Proof.Machine

/-! ## Reset -/

theorem reset_reg (r : Nibble) : State.reset.reg r = 0 := by
  simp [State.reg, State.reset]

theorem reset_slot (k : Nat) : State.reset.slot k = 0 := by
  rw [State.slot]
  split
  · rfl
  · rw [State.reset, Vector.toList_replicate, List.getD_eq_getElem?_getD, List.getElem?_getD_replicate_default_eq]

theorem reset_memByte (a : Nat) : State.reset.memByte a = if h : a < glyphTable.length then glyphTable[a] else 0 := by
  show (if 0 ≤ a then glyphTable.getD (a - 0) 0 else 0) = _
  rw [if_pos (Nat.zero_le a), Nat.sub_zero]
  split
  · next h => rw [List.getD_eq_getElem _ _ h]
  · next h => rw [List.getD_eq_default _ _ (Nat.le_of_not_lt h)]

/-- Settles O48: each part of the reset state read. -/
theorem resetLeaves : Obligations.ResetLeaves :=
  ⟨reset_reg, rfl, rfl, rfl, reset_slot, rfl, rfl, reset_memByte, rfl, Frame.pixel_blank, rfl, rfl⟩

/-- Settles O49: the host's reset is the reset state but for the inputs, which it passes on. -/
theorem hostResetRestoresReset : Obligations.HostResetRestoresReset := by
  refine fun s => ⟨?_, rfl, rfl⟩
  apply KeepsAllBut.of_fields <;> simp [State.hostReset]

/-- Settles O55: `pc` is the load address and every slot is 0. -/
theorem pcBoundAtReset : Obligations.PcBoundAtReset := by
  refine ⟨by decide, fun k => ?_⟩
  rw [reset_slot]
  decide

/-! ## Launch -/

/-- Settles O50: a launched image that fits is one store into the reset memory; one that does not is refused. -/
theorem launchLoadsTheImage : Obligations.LaunchLoadsTheImage := by
  refine fun image => ⟨fun hfits => ?_, fun hlong => if_neg (Nat.not_le.mpr hlong)⟩
  refine ⟨launched image, launch_of_fits hfits, memByte_launched hfits, ?_, ?_⟩
  · exact Memory.wf_writeBytes image Memory.wf_nil (by simp only [config_memSize, config_loadAddr]; omega)
  · apply KeepsAllBut.of_fields <;> simp [launched]

/-! ## Placing a word -/

theorem tableWord_toNat (w : Word) : tableWord 16 w.toNat = w := by
  rw [tableWord, Nat.mod_eq_of_lt w.isLt, BitVec.ofNat_toNat, BitVec.setWidth_eq]

/-- A placed word lies where the next step fetches: two bytes are in memory at the placed `pc`. -/
theorem placeWord_pc_inMemory (s : State) (w : Word) : (s.placeWord w).pc.toNat + 1 < config.memSize := by
  show (if inRange s.pc.toNat config.instrBytes then s.pc else BitVec.ofNat 16 config.loadAddr).toNat + 1 < config.memSize
  split
  · next h => exact (inRange_succ_iff _ 1).mp h
  · decide

theorem wordAtPc_placeWord {s : State} (hwf : Memory.wf s.mem = true) (w : Word) : wordAtPc (s.placeWord w) = w := by
  have hin := placeWord_pc_inMemory s w
  have hread (c : Nat) : (s.placeWord w).memByte c =
      if (s.placeWord w).pc.toNat ≤ c ∧ c < (s.placeWord w).pc.toNat + 2 then (bytesOfWord w).getD (c - (s.placeWord w).pc.toNat) 0
      else s.memByte c := Memory.read_writeBytes _ c (bytesOfWord w) hwf hin
  rw [wordAtPc, hread, hread, if_pos (by omega), if_pos (by omega), Nat.sub_self, Nat.add_sub_cancel_left]
  exact wordOfBytes_of_word w

/-- Settles O51: the core runs after a placing, and the word at its `pc` is the placed one. -/
theorem placedWordRunsNext : Obligations.PlacedWordRunsNext := by
  intro s w hwf
  rw [State.withFetchWord, tableWord_toNat,
    step_of_inMemory (s := s.placeWord w) rfl (placeWord_pc_inMemory s w), wordAtPc_placeWord hwf]

end Sys2Proof.Machine
end
